-- ==== Sys2Proof/Word.lean ====
section
/-! DEFINITION. The three word types of GTIP-CORE (00_scope.md R8, R10): bytes of the byte memories, 16-bit header
fields, 32-bit registers and table entries. -/

namespace Sys2Proof

/-- A byte of FMEM, PIX, PAL or LUT (R10). -/
abbrev Byte := BitVec 8

/-- A 16-bit header field (R25, R94). -/
abbrev Half := BitVec 16

/-- A 32-bit register, or an entry of HIST or CDF (R8, R32). -/
abbrev Word := BitVec 32

end Sys2Proof
end

