-- ==== Sys2Proof/Syntax.lean ====
section
/-! DEFINITION. The commands of GTIP-CORE, one constructor per row of spec/opcode_table.json (30_encoding.md R100). -/

namespace Sys2Proof

/-- The commands of R100. Scalar parameters are not part of the command: they are read from ARG0 and ARG1 (R92). -/
inductive Instr where
  /-- NOP (R180). -/
  | nop
  /-- DECODE with expected depth 8 (R130). -/
  | decode8
  /-- DECODE with expected depth 24 (R130). -/
  | decode24
  /-- ENCODE (R150). -/
  | encode
  /-- ALLOC; the immediate is the depth, any value 0 to 255 being a legal encoding (R101, R181). -/
  | alloc (depth : Nat)
  /-- FREE (R185). -/
  | free
  /-- NEG (R201). -/
  | neg
  /-- BRIGHT (R202). -/
  | bright
  /-- THRESH (R203). -/
  | thresh
  /-- GRAY (R204). -/
  | gray
  /-- BLUR (R224). -/
  | blur
  /-- GAUSS (R225). -/
  | gauss
  /-- OUTLINE (R226). -/
  | outline
  /-- EMBOSS (R227). -/
  | emboss
  /-- SHARPEN (R228). -/
  | sharpen
  /-- EQUALIZE (R250). -/
  | equalize
  deriving DecidableEq, Repr

end Sys2Proof
end

