-- ==== Sys2Proof/WellFormed.lean ====
section
/-! DEFINITION. Which commands have an encoding: the immediate of ALLOC must fit its 8-bit field (30_encoding.md R90,
R91). Every other command has no operand in its word. -/

namespace Sys2Proof

/-- The command can be written as a 32-bit word (R90, R91). -/
def Instr.wellFormed : Instr → Bool
  | .alloc depth => decide (depth < 256)
  | .nop | .decode8 | .decode24 | .encode | .free | .neg | .bright | .thresh | .gray => true
  | .blur | .gauss | .outline | .emboss | .sharpen | .equalize => true

end Sys2Proof
end

