-- ==== Sys2Proof/Decode.lean ====
section
/-! DEFINITION. The command word (30_encoding.md R90): its decoder, total on every 32-bit word and naming the clause of
R101 that makes a word illegal, and the encoder written from the same table. -/

namespace Sys2Proof

/-- Why a word is no command (R101 (a) to (d)). -/
inductive Illegal where
  /-- (a): bits [31:16] are not 0. -/
  | zeroField
  /-- (b): bits [7:0] are none of the 15 opcodes. -/
  | opcode
  /-- (c): a command other than DECODE and ALLOC with a non-zero IMM8. -/
  | immediate
  /-- (d): DECODE with IMM8 neither 8 nor 24. -/
  | depth
  deriving DecidableEq, Repr

/-- `w[hi:lo]`, the bit slice as an unsigned number (R10). -/
def bits (w : Word) (hi lo : Nat) : Nat := (w.extractLsb hi lo).toNat

/-- OP = `w[7:0]` (R90). -/
def opField (w : Word) : Nat := bits w 7 0

/-- IMM8 = `w[15:8]`, zero-extended (R90, R91). -/
def immField (w : Word) : Nat := bits w 15 8

/-- ZERO = `w[31:16]` (R90). -/
def zeroField (w : Word) : Nat := bits w 31 16

/-- The opcode of each command (R100). -/
def Instr.opcode : Instr → Nat
  | .nop => 0x00
  | .decode8 => 0x01
  | .decode24 => 0x01
  | .encode => 0x02
  | .alloc _ => 0x03
  | .free => 0x04
  | .neg => 0x10
  | .bright => 0x11
  | .thresh => 0x12
  | .gray => 0x13
  | .blur => 0x20
  | .gauss => 0x21
  | .outline => 0x22
  | .emboss => 0x23
  | .sharpen => 0x24
  | .equalize => 0x30

/-- The IMM8 of each command: the depth for DECODE and ALLOC, 0 for every other (R90, R100). -/
def Instr.imm8 : Instr → Nat
  | .decode8 => 8
  | .decode24 => 24
  | .alloc depth => depth
  | .nop | .encode | .free | .neg | .bright | .thresh | .gray => 0
  | .blur | .gauss | .outline | .emboss | .sharpen | .equalize => 0

/-- The commands whose IMM8 must be 0, by opcode (R100). -/
def plainCommands : List (Nat × Instr) :=
  [(0x00, .nop), (0x02, .encode), (0x04, .free),
   (0x10, .neg), (0x11, .bright), (0x12, .thresh), (0x13, .gray),
   (0x20, .blur), (0x21, .gauss), (0x22, .outline), (0x23, .emboss), (0x24, .sharpen),
   (0x30, .equalize)]

/-- The command a word names, or the clause of R101 that makes it illegal. -/
def decode (w : Word) : Except Illegal Instr :=
  if zeroField w ≠ 0 then .error .zeroField
  else if opField w = 0x01 then
    if immField w = 8 then .ok .decode8
    else if immField w = 24 then .ok .decode24
    else .error .depth
  else if opField w = 0x03 then .ok (.alloc (immField w))
  else match plainCommands.lookup (opField w) with
    | none => .error .opcode
    | some i => if immField w = 0 then .ok i else .error .immediate

/-- The word of a command: OP in bits [7:0], IMM8 in bits [15:8], zeros above (R90). -/
def encode (i : Instr) : Word := BitVec.ofNat 32 (i.opcode + 256 * i.imm8)

/-- The command the decoder reads from the low `nbits` bits of `w`, the bits above being 0; there is one command length,
32 bits (R102), so a number of more than 32 bits names none (DESIGN CHOICE, log entry 12). -/
def decodeTableWord (nbits w : Nat) : Option Instr :=
  if w % 2 ^ nbits < 2 ^ 32 then (decode (BitVec.ofNat 32 (w % 2 ^ nbits))).toOption else none

end Sys2Proof
end

