-- ==== Sys2Proof/Config.lean ====
section
/-! DEFINITION. What an implementation fixes (the capacities FILE_CAP and PIX_CAP, 00_scope.md R7) and the free values
(the memory contents the spec leaves unspecified, 10_state.md R36, 93_implementation_defined.md U7). -/

namespace Sys2Proof

/-- The byte-wide spaces a host transaction can name (20_memory.md R60, R62). SNAP is not among them: the host has no
access to it and it is dead between commands (R34). -/
inductive ByteSpace where
  /-- FMEM, the file memory (R30). -/
  | fmem
  /-- PIX, the pixel memory (R28). -/
  | pix
  /-- PAL, the palette memory (R29). -/
  | pal
  /-- LUT, the lookup table of EQUALIZE (R32); the host can only read it. -/
  | lut
  deriving DecidableEq, Repr

/-- The word-wide spaces a host transaction can name, both read-only to it (20_memory.md R60, R62). -/
inductive WordSpace where
  /-- HIST, the 256-bin histogram (R32). -/
  | hist
  /-- CDF, the cumulative distribution (R32). -/
  | cdf
  deriving DecidableEq, Repr

/-- The two capacities of R7. The spec fixes no value ("Both are OPEN"), so a state carries them and every statement
over all states is about every pair of capacities (log entry 1). -/
structure Caps where
  /-- FILE_CAP, the size of FMEM in bytes. -/
  fileCap : Nat
  /-- PIX_CAP, the size of PIX in bytes. -/
  pixCap : Nat
  deriving DecidableEq, Repr

/-- The capacities the machine of `State.reset` has: those 95_test_vectors.md uses "unless a vector says otherwise".
DESIGN CHOICE (log entry 1). -/
def Config.resetCaps : Caps := { fileCap := 4096, pixCap := 4096 }

/-- Free value: what index `i` of a byte space holds after the reset numbered `draw`, until it is written
(R36: "A model must treat each unspecified as a free value (a draw), not as zero"). It has no body (log entry 2). -/
opaque Config.powerOnByte : ByteSpace → (draw : Nat) → (i : Nat) → Byte

/-- Free value: the same for HIST and CDF (R36; log entry 2). -/
opaque Config.powerOnWord : WordSpace → (draw : Nat) → (i : Nat) → Word

end Sys2Proof
end

