-- ==== Sys2Proof/Machine/State.lean ====
section
/-! DEFINITION. The state of GTIP-CORE (10_state.md R20 to R36) as plain data, with the host's pending actions beside it
(20_memory.md R62), the reasons a step can stop, and the state after reset (R36, R330). -/

namespace Sys2Proof.Machine

/-- A memory: the indices written since reset with their contents, strictly rising (`Memory.wf`). An index that is not
listed has not been written since reset and holds no value of its own; the machine reads it as a free value
(`State.readByte`, `State.readWord`; log entries 2 and 3). At width 8 it is a list of `Host.Cell`. -/
abbrev Memory (w : Nat) := List (Nat × BitVec w)

/-- The error kinds of STATUS.ERR (60_exceptions.md R290). Codes 8 to 15 are reserved and never produced, so they have
no constructor. -/
inductive ErrKind where
  /-- 0: the command completed. -/
  | ok
  /-- 1: bad signature or malformed header. -/
  | format
  /-- 2: wrong bit depth, compression present, invalid dimensions. -/
  | unsupportedFormat
  /-- 3: file shorter than its header declares. -/
  | truncatedData
  /-- 4: cannot acquire buffer memory. -/
  | allocation
  /-- 5: cannot write the destination. -/
  | io
  /-- 6: image too small for a 3×3 convolution. -/
  | size
  /-- 7: the word is no command, or the command cannot apply to the slot. -/
  | illegalCommand
  deriving DecidableEq, Repr

/-- The sixteen header field registers H_SIG to H_CLRIMP, in the order and with the widths of R25 and R94. -/
structure Header where
  /-- H_SIG, 0x40. -/
  sig : Half
  /-- H_FSIZE, 0x44. -/
  fsize : Word
  /-- H_RES1, 0x48. -/
  res1 : Half
  /-- H_RES2, 0x4C. -/
  res2 : Half
  /-- H_DOFF, 0x50. -/
  doff : Word
  /-- H_IHSIZE, 0x54. -/
  ihsize : Word
  /-- H_WIDTH, 0x58, signed through `s32`. -/
  width : Word
  /-- H_HEIGHT, 0x5C, signed through `s32`; the sign is the file's row order. -/
  height : Word
  /-- H_PLANES, 0x60. -/
  planes : Half
  /-- H_BPP, 0x64. -/
  bpp : Half
  /-- H_COMPR, 0x68. -/
  compr : Word
  /-- H_ISIZE, 0x6C. -/
  isize : Word
  /-- H_XRES, 0x70. -/
  xres : Word
  /-- H_YRES, 0x74. -/
  yres : Word
  /-- H_CLRUSED, 0x78. -/
  clrused : Word
  /-- H_CLRIMP, 0x7C. -/
  clrimp : Word
  deriving DecidableEq, Repr

/-- All sixteen header registers 0, their reset value (R25, R36). -/
def Header.zero : Header :=
  { sig := 0, fsize := 0, res1 := 0, res2 := 0, doff := 0, ihsize := 0, width := 0, height := 0, planes := 0, bpp := 0,
    compr := 0, isize := 0, xres := 0, yres := 0, clrused := 0, clrimp := 0 }

/-- A host transaction (20_memory.md R62). Units and spaces are those of R60; no other width or space exists
(DEDUCED, log entry 14). -/
inductive Txn where
  /-- RegRead(a). -/
  | regRead (a : Nat)
  /-- RegWrite(a, v). -/
  | regWrite (a : Nat) (v : Word)
  /-- ByteRead(S, i). -/
  | byteRead (S : ByteSpace) (i : Nat)
  /-- ByteWrite(S, i, v). -/
  | byteWrite (S : ByteSpace) (i : Nat) (v : Byte)
  /-- WordRead(S, i). -/
  | wordRead (S : WordSpace) (i : Nat)
  /-- A write to HIST or CDF, which does nothing. -/
  | wordWrite (S : WordSpace) (i : Nat) (v : Word)
  deriving DecidableEq, Repr

/-- What happens next outside the block: whose turn it is, and what the host does with it (R20, R69). -/
inductive Event where
  /-- The host performs one transaction (R62). -/
  | host (t : Txn)
  /-- The sequencer takes its step if a command is waiting (R106, R346). -/
  | sequencer
  /-- The reset event `rst` (70_reset_and_hazards.md R330). -/
  | rst
  deriving DecidableEq, Repr

/-- What a host read returned (R62). -/
inductive Reply where
  /-- No read has been answered yet. -/
  | nothing
  /-- The 32-bit value of RegRead or WordRead. -/
  | word (v : Word)
  /-- The byte of ByteRead. -/
  | byte (v : Byte)
  deriving DecidableEq, Repr

/-- The machine: every piece of state R21 names, and beside it the model's own fields `caps`, `draw`, `inbox` and
`reply` (log entries 1, 2, 5 and 7). -/
structure State where
  /-- FILE_CAP and PIX_CAP (R7); no step changes them. -/
  caps : Caps
  /-- CMD (R22). -/
  cmd : Word
  /-- ARG0 (R23). -/
  arg0 : Word
  /-- ARG1 (R23). -/
  arg1 : Word
  /-- STATUS.BUSY (R24). -/
  busy : Bool
  /-- STATUS.VALID (R24, R27). -/
  valid : Bool
  /-- STATUS.ERR (R24, R290). -/
  err : ErrKind
  /-- FLEN (R30). -/
  flen : Word
  /-- H_SIG to H_CLRIMP (R25). -/
  hdr : Header
  /-- FMEM (R30). -/
  fmem : Memory 8
  /-- PIX (R28). -/
  pix : Memory 8
  /-- PAL (R29). -/
  pal : Memory 8
  /-- LUT (R32). -/
  lut : Memory 8
  /-- HIST (R32). -/
  hist : Memory 32
  /-- CDF (R32). -/
  cdf : Memory 32
  /-- The model's own: the number of the reset whose unspecified contents the memories hold where unwritten. -/
  draw : Nat
  /-- The model's own: what the host and the turn order bring next, first to come first (R20, R62, R69). -/
  inbox : List Event
  /-- The model's own: the value the host's most recent read returned (R62). -/
  reply : Reply
  deriving DecidableEq, Repr

/-- Why a step can stop with a fault: never. Every error of this block is an error kind in STATUS (R291, R295), and
"there is no stuck state and no hang inside the block" (R346), so the type has no constructor. -/
inductive Fault where
  deriving DecidableEq, Repr

/-- Why a step can be refused. Only host transactions the spec gives no meaning are. -/
inductive Refusal where
  /-- An instruction without a meaning. No arm of `exec` raises it: every command is modelled. Safe. -/
  | notModelled (mnemonic : String)
  /-- A host transaction other than RegRead(0x0C) while BUSY = 1 (R74, U5: "refuse"). Raised by `performTxn`. Safe. -/
  | hostWhileBusy
  /-- A host transaction at an index outside its space's extent (R67, U6: "refuse"). Raised by `performTxn`. Safe. -/
  | indexOutOfExtent
  deriving DecidableEq, Repr

/-- The machine right after reset, for given capacities and a given draw of the unspecified memory contents (R36,
R330): registers 0, idle, no image, no error, memories unwritten. -/
def State.resetWith (caps : Caps) (draw : Nat) (inbox : List Event) : State :=
  { caps, cmd := 0, arg0 := 0, arg1 := 0, busy := false, valid := false, err := .ok, flen := 0, hdr := Header.zero,
    fmem := [], pix := [], pal := [], lut := [], hist := [], cdf := [], draw, inbox, reply := .nothing }

/-- The machine right after reset (R36, R330). -/
def State.reset : State := State.resetWith Config.resetCaps 0 []

end Sys2Proof.Machine
end

