-- ==== Sys2Proof/Machine/Flags.lean ====
section
/-! DEFINITION. The block's only flag register, STATUS (10_state.md R24), and the codes of its ERR field
(60_exceptions.md R290). -/

namespace Sys2Proof.Machine

/-- The code of an error kind in STATUS.ERR (R290). -/
def ErrKind.code : ErrKind → Nat
  | .ok => 0
  | .format => 1
  | .unsupportedFormat => 2
  | .truncatedData => 3
  | .allocation => 4
  | .io => 5
  | .size => 6
  | .illegalCommand => 7

/-- STATUS as the host reads it: BUSY in bit 0, VALID in bit 1, ERR in bits [7:4], every other bit 0 (R24). -/
def State.status (s : State) : Word :=
  BitVec.ofNat 32 (s.busy.toNat + 2 * s.valid.toNat + 16 * s.err.code)

end Sys2Proof.Machine
end

