-- ==== Sys2Proof/Machine/Operands.lean ====
section
/-! DEFINITION. Operand forms: signed reads, rounding and clamping (00_scope.md R9, R10), little-endian fields (R10,
20_memory.md R63), the image geometry (R12) and the index forms through which commands reach memory
(46_control_access_system.md R272). -/

namespace Sys2Proof.Machine

/-- `s32(v)`: two's complement (R10). -/
def s32 (v : Word) : Int := if v.toNat < 2 ^ 31 then (v.toNat : Int) else (v.toNat : Int) - 2 ^ 32

/-- `clamp(v, lo, hi)` (R9). -/
def clamp (v lo hi : Int) : Int := if v < lo then lo else if v > hi then hi else v

/-- `clamp8(v) = clamp(v, 0, 255)` (R9). -/
def clamp8 (v : Int) : Int := clamp v 0 255

/-- `rnd(n, d)`: the integer nearest to n/d, ties away from zero (R9, D20). -/
def rnd (n d : Int) : Int := if 0 ≤ n then (2 * n + d) / (2 * d) else -((2 * (-n) + d) / (2 * d))

/-- A value the rules keep within 0..255, stored as a byte (R272). -/
def toByte (v : Int) : Byte := BitVec.ofInt 8 v

/-- `u16le(M, a)` (R10). -/
def u16le (m : Nat → Byte) (a : Nat) : Nat := (m a).toNat + 256 * (m (a + 1)).toNat

/-- `u32le(M, a)` (R10). -/
def u32le (m : Nat → Byte) (a : Nat) : Nat :=
  (m a).toNat + 2 ^ 8 * (m (a + 1)).toNat + 2 ^ 16 * (m (a + 2)).toNat + 2 ^ 24 * (m (a + 3)).toNat

/-- The bytes `put16le` writes, lowest address first (R10). -/
def bytes16le (v : Nat) : List Byte := [BitVec.ofNat 8 v, BitVec.ofNat 8 (v / 256)]

/-- The bytes `put32le` writes, lowest address first (R10). -/
def bytes32le (v : Nat) : List Byte :=
  [BitVec.ofNat 8 v, BitVec.ofNat 8 (v / 2 ^ 8), BitVec.ofNat 8 (v / 2 ^ 16), BitVec.ofNat 8 (v / 2 ^ 24)]

/-- The header size, 54 bytes (R8). -/
abbrev headerSize : Nat := 54

/-- The palette size, 1024 bytes (R8). -/
abbrev paletteSize : Nat := 1024

/-- The number of histogram bins, 256 (R8). -/
abbrev bins : Nat := 256

/-- STRIDE for `w` pixels of `bppb` bytes: the row length rounded up to a multiple of 4 (R12, D10). -/
def strideOf (w bppb : Nat) : Nat := (w * bppb + 3) / 4 * 4

/-- CANON, the canonical pixel-data offset of a depth (R8, R12). -/
def canonOf (depth : Nat) : Nat := if depth = 24 then headerSize else headerSize + paletteSize

/-- W (R12); defined when the slot is valid, where the width is positive (R24; DEDUCED elsewhere, log entry 11). -/
def Header.w (h : Header) : Nat := (s32 h.width).toNat

/-- ROWS = |s32(H_HEIGHT)|, over ℤ (R12, R135). -/
def Header.rows (h : Header) : Nat := (s32 h.height).natAbs

/-- DEPTH = H_BPP (R12). -/
def Header.depth (h : Header) : Nat := h.bpp.toNat

/-- BPPB = DEPTH div 8 (R12). -/
def Header.bppb (h : Header) : Nat := h.depth / 8

/-- STRIDE (R12). -/
def Header.stride (h : Header) : Nat := strideOf h.w h.bppb

/-- CANON (R12). -/
def Header.canon (h : Header) : Nat := canonOf h.depth

/-- NPIX = W·ROWS (R12). -/
def Header.npix (h : Header) : Nat := h.w * h.rows

/-- NBYTES = NPIX·BPPB (R12). -/
def Header.nbytes (h : Header) : Nat := h.npix * h.bppb

/-- P(y, x, c), the PIX index of channel c of the pixel at canonical (y, x) (R12). -/
def Header.pixIndex (h : Header) (y x c : Nat) : Nat := (y * h.w + x) * h.bppb + c

/-- The canonical row of PIX index `i`: the inverse of P (R12). -/
def Header.rowOf (h : Header) (i : Nat) : Nat := i / h.bppb / h.w

/-- The canonical column of PIX index `i`. -/
def Header.colOf (h : Header) (i : Nat) : Nat := i / h.bppb % h.w

/-- The channel of PIX index `i`. -/
def Header.chanOf (h : Header) (i : Nat) : Nat := i % h.bppb

/-- The channel order reverses between file and PIX: blue, green, red against red, green, blue; on the 8-bit path the
one channel stays (R141, R142, R155). -/
def Header.swapChan (h : Header) (c : Nat) : Nat := h.bppb - 1 - c

/-- The file row that holds canonical row `y`, or the canonical row of a file row: reversed for a bottom-up file, the
same for a top-down one (R140). -/
def Header.fileRow (h : Header) (y : Nat) : Nat := if s32 h.height > 0 then h.rows - 1 - y else y

/-- The FMEM index of byte `k` of the pixel in column `x` of file row `r`, rows starting at `off` (R272). -/
def Header.filePixelIndex (h : Header) (off r x k : Nat) : Nat := off + r * h.stride + x * h.bppb + k

/-- The sixteen fields at their offsets, little-endian (R94, R133). -/
def extractHeader (m : Nat → Byte) : Header :=
  { sig := BitVec.ofNat 16 (u16le m 0), fsize := BitVec.ofNat 32 (u32le m 2), res1 := BitVec.ofNat 16 (u16le m 6),
    res2 := BitVec.ofNat 16 (u16le m 8), doff := BitVec.ofNat 32 (u32le m 10), ihsize := BitVec.ofNat 32 (u32le m 14),
    width := BitVec.ofNat 32 (u32le m 18), height := BitVec.ofNat 32 (u32le m 22),
    planes := BitVec.ofNat 16 (u16le m 26), bpp := BitVec.ofNat 16 (u16le m 28), compr := BitVec.ofNat 32 (u32le m 30),
    isize := BitVec.ofNat 32 (u32le m 34), xres := BitVec.ofNat 32 (u32le m 38), yres := BitVec.ofNat 32 (u32le m 42),
    clrused := BitVec.ofNat 32 (u32le m 46), clrimp := BitVec.ofNat 32 (u32le m 50) }

end Sys2Proof.Machine
end

