-- ==== Sys2Proof/Machine/Ops.lean ====
section
/-! DEFINITION. The shared operations: the memories, the machine's reads of one byte or word, completion and the error
entry (`fail`, 60_exceptions.md R296), the check list of a command (R293), and the reset event (R330).

There is no return from an error: "There is no return instruction and no handler inside the block" (R297); the block is
idle after `State.fail` as after `State.done`. -/

namespace Sys2Proof.Machine

/-- The canonical form: indices strictly rising. -/
abbrev Memory.wf {w : Nat} (m : Memory w) : Prop := m.Pairwise (fun a b => a.1 < b.1)

/-- Every listed index is below `n`, the extent of the space (R60). -/
abbrev Memory.within {w : Nat} (m : Memory w) (n : Nat) : Prop := ∀ c ∈ m, c.1 < n

/-- What an index was last written with; `none` for an index not written since reset. -/
def Memory.read {w : Nat} (m : Memory w) (i : Nat) : Option (BitVec w) :=
  match m with
  | [] => none
  | (j, v) :: rest => if j = i then some v else Memory.read rest i

/-- Writes `f 0, …, f (n - 1)` to the `n` indices from `base` on, and nothing else. -/
def Memory.fill {w : Nat} (m : Memory w) (base n : Nat) (f : Nat → BitVec w) : Memory w :=
  m.filter (fun c => decide (c.1 < base)) ++ (List.range n).map (fun k => (base + k, f k))
    ++ m.filter (fun c => decide (base + n ≤ c.1))

/-- Writes one index. -/
def Memory.write {w : Nat} (m : Memory w) (i : Nat) (v : BitVec w) : Memory w := m.fill i 1 (fun _ => v)

/-- The memory behind a byte space (R60: no two alias). -/
def State.byteMem (s : State) : ByteSpace → Memory 8
  | .fmem => s.fmem
  | .pix => s.pix
  | .pal => s.pal
  | .lut => s.lut

/-- The memory behind a word space. -/
def State.wordMem (s : State) : WordSpace → Memory 32
  | .hist => s.hist
  | .cdf => s.cdf

/-- S[i] for a byte space: the byte last written, or the free value an unwritten byte holds since reset (R36). -/
def State.readByte (s : State) (S : ByteSpace) (i : Nat) : Byte :=
  ((s.byteMem S).read i).getD (Config.powerOnByte S s.draw i)

/-- S[i] for HIST and CDF (R32, R36). -/
def State.readWord (s : State) (S : WordSpace) (i : Nat) : Word :=
  ((s.wordMem S).read i).getD (Config.powerOnWord S s.draw i)

/-- L = min(FLEN, FILE_CAP), the number of file bytes available (R30). -/
def State.fileLen (s : State) : Nat := min s.flen.toNat s.caps.fileCap

/-- `PIX[i] <- f i` for all i below `n`; `f` reads the state before the command (DEDUCED, log entry 9). -/
def State.setPix (s : State) (n : Nat) (f : Nat → Byte) : State := { s with pix := s.pix.fill 0 n f }

/-- `done`: ERR ← 0, BUSY ← 0 (R106). -/
def State.done (s : State) : State := { s with err := .ok, busy := false }

/-- `fail K`, the block's error entry: ERR ← K, BUSY ← 0, no other change (R106, R296). -/
def State.fail (s : State) (k : ErrKind) : State := { s with err := k, busy := false }

/-- The kind of the first check that fails, in the order the rule lists them (R293). -/
def firstFailing : List (Bool × ErrKind) → Option ErrKind
  | [] => none
  | (failed, k) :: rest => if failed then some k else firstFailing rest

/-- One command, as the sequencer's atomic step: the checks in order, then either `fail K` with nothing changed, or the
command's writes and `done` (R106, R295, D14). -/
def runCommand (checks : List (Bool × ErrKind)) (effect : State → State) (s : State) :
    Host.Outcome State Fault Refusal :=
  match firstFailing checks with
  | some k => .next (s.fail k)
  | none => .next (effect s).done

/-- The common check of a command that needs an image (R107 (2)). -/
def needsImage (s : State) : Bool × ErrKind := (!s.valid, .illegalCommand)

/-- The reset event: registers 0, a running command abandoned, memories not cleared but of unspecified contents, which
is a fresh draw of free values (R36, R330; log entry 4). The capacities and the host's side stay. -/
def State.resetEvent (s : State) : State :=
  { State.resetWith s.caps (s.draw + 1) s.inbox with reply := s.reply }

end Sys2Proof.Machine
end

