-- ==== Sys2Proof/Machine/Codec.lean ====
section
/-! DEFINITION. The codec commands DECODE and ENCODE (40_codec.md): the header parser, the row-order converter and the
header serialiser. -/

namespace Sys2Proof.Machine

/-- The fields of the file in FMEM (R133). -/
def State.fileHeader (s : State) : Header := extractHeader (s.readByte .fmem)

/-- off: the declared offset if it is non-zero, else the canonical one (R136, C1). -/
def dataOffset (f : Header) (d : Nat) : Nat := if f.doff ≠ 0 then f.doff.toNat else canonOf d

/-- The checks of DECODE in their order: length, signature, fields, capacity, palette, rows (R130 steps 1 to 7, R131,
R132, R134, R135, R137, R293). -/
def decodeChecks (d : Nat) (s : State) : List (Bool × ErrKind) :=
  let f := s.fileHeader
  let w := (s32 f.width).toNat
  [(decide (s.fileLen < headerSize), .format),
   (s.readByte .fmem 0 != 0x42 || s.readByte .fmem 1 != 0x4D, .format),
   (f.planes != 1 || f.bpp.toNat != d || f.compr != 0 || decide (s32 f.width ≤ 0) || decide (s32 f.height = 0),
    .unsupportedFormat),
   (decide (w * f.rows * (d / 8) > s.caps.pixCap), .allocation),
   (d == 8 && decide (s.fileLen < headerSize + paletteSize), .truncatedData),
   (decide (dataOffset f d + strideOf w (d / 8) * f.rows > s.fileLen), .truncatedData)]

/-- The byte DECODE stores at PIX index `i`: the file's byte of the same visual pixel and channel (R140 to R142). -/
def decodedByte (s : State) (f : Header) (d : Nat) (i : Nat) : Byte :=
  s.readByte .fmem
    (f.filePixelIndex (dataOffset f d) (f.fileRow (f.rowOf i)) (f.colOf i) (f.swapChan (f.chanOf i)))

/-- The writes of DECODE (R130 steps 8 to 10, R138 to R142). -/
def decodeEffect (d : Nat) (s : State) : State :=
  let f := s.fileHeader
  { s with
    hdr := f, valid := true,
    pal := if d = 8 then s.pal.fill 0 paletteSize (fun k => s.readByte .fmem (headerSize + k)) else s.pal,
    pix := s.pix.fill 0 f.nbytes (decodedByte s f d) }

/-- DECODE d (R130). -/
def decodeFile (d : Nat) (s : State) : Host.Outcome State Fault Refusal :=
  runCommand (decodeChecks d s) (decodeEffect d) s

/-- DECODE 8 (R130). -/
def execDecode8 (s : State) : Host.Outcome State Fault Refusal := decodeFile 8 s

/-- DECODE 24 (R130). -/
def execDecode24 (s : State) : Host.Outcome State Fault Refusal := decodeFile 24 s

/-- isize = STRIDE·ROWS, recomputed (R151). -/
def Header.imageSize (h : Header) : Nat := h.stride * h.rows

/-- fsize = CANON + isize, recomputed (R151). -/
def Header.fileSize (h : Header) : Nat := h.canon + h.imageSize

/-- The 54 header bytes ENCODE emits: sizes, offset and a positive height recomputed, the other fields as the registers
hold them (R150 step 3, R153). -/
def Header.emitted (h : Header) : List Byte :=
  [0x42, 0x4D] ++ bytes32le h.fileSize ++ bytes16le h.res1.toNat ++ bytes16le h.res2.toNat ++ bytes32le h.canon
    ++ bytes32le h.ihsize.toNat ++ bytes32le h.width.toNat ++ bytes32le h.rows ++ bytes16le h.planes.toNat
    ++ bytes16le h.bpp.toNat ++ bytes32le h.compr.toNat ++ bytes32le h.imageSize ++ bytes32le h.xres.toNat
    ++ bytes32le h.yres.toNat ++ bytes32le h.clrused.toNat ++ bytes32le h.clrimp.toNat

/-- Byte `k` of the emitted pixel rows: file row r = k div STRIDE holds canonical row ROWS − 1 − r, its bytes beyond the
pixels are zero padding (R150 step 5, R155). -/
def emittedRowByte (s : State) (k : Nat) : Byte :=
  let h := s.hdr
  let col := k % h.stride
  if col < h.w * h.bppb then
    s.readByte .pix (h.pixIndex (h.rows - 1 - k / h.stride) (col / h.bppb) (h.swapChan (col % h.bppb)))
  else 0

/-- Byte `k` of the emitted file: header, palette for depth 8, rows (R150 steps 3 to 5). -/
def emittedByte (s : State) (k : Nat) : Byte :=
  if k < headerSize then s.hdr.emitted.getD k 0
  else if k < s.hdr.canon then s.readByte .pal (k - headerSize)
  else emittedRowByte s (k - s.hdr.canon)

/-- The checks of ENCODE (R107, R150 step 2, R152). -/
def encodeChecks (s : State) : List (Bool × ErrKind) :=
  [needsImage s, (decide (s.hdr.fileSize > s.caps.fileCap), .io)]

/-- The writes of ENCODE (R150 steps 3 to 6, R156). -/
def encodeEffect (s : State) : State :=
  { s with fmem := s.fmem.fill 0 s.hdr.fileSize (emittedByte s), flen := BitVec.ofNat 32 s.hdr.fileSize }

/-- ENCODE (R150). -/
def execEncode (s : State) : Host.Outcome State Fault Refusal := runCommand (encodeChecks s) encodeEffect s

end Sys2Proof.Machine
end

