-- ==== Sys2Proof/Machine/Pointwise.lean ====
section
/-! DEFINITION. The pointwise transforms NEG, BRIGHT, THRESH and GRAY (42_pointwise.md). The result at a pixel depends
on that pixel alone (R200), so each command is given by the new byte at every index. -/

namespace Sys2Proof.Machine

/-- PIX[i] as an integer 0 to 255 (R272: the only widening). -/
def State.pixVal (s : State) (i : Nat) : Int := ((s.readByte .pix i).toNat : Int)

/-- `255 − v` (R201). -/
def negValue (v : Int) : Int := 255 - v

/-- `clamp8(v + d)` (R202). -/
def brightValue (d v : Int) : Int := clamp8 (v + d)

/-- 255 if `v ≥ t` else 0 (R203). -/
def threshValue (t v : Int) : Int := if v ≥ t then 255 else 0

/-- `(r + g + b) div 3` of pixel `p` of a depth-24 image (R203, R204). -/
def State.grayOf (s : State) (p : Nat) : Int :=
  (s.pixVal (3 * p) + s.pixVal (3 * p + 1) + s.pixVal (3 * p + 2)) / 3

/-- NEG (R201). -/
def execNeg (s : State) : Host.Outcome State Fault Refusal :=
  runCommand [needsImage s] (fun s => s.setPix s.hdr.nbytes (fun i => toByte (negValue (s.pixVal i)))) s

/-- BRIGHT (R202); delta is `s32(ARG0)`. -/
def execBright (s : State) : Host.Outcome State Fault Refusal :=
  runCommand [needsImage s]
    (fun s => s.setPix s.hdr.nbytes (fun i => toByte (brightValue (s32 s.arg0) (s.pixVal i)))) s

/-- The writes of THRESH: on depth 8 against the unclamped t, on depth 24 the gray of the pixel against t clamped to
0..255 (R203, D26). -/
def threshEffect (s : State) : State :=
  if s.hdr.depth = 8 then s.setPix s.hdr.npix (fun i => toByte (threshValue (s32 s.arg0) (s.pixVal i)))
  else s.setPix (3 * s.hdr.npix) (fun i => toByte (threshValue (clamp (s32 s.arg0) 0 255) (s.grayOf (i / 3))))

/-- THRESH (R203). -/
def execThresh (s : State) : Host.Outcome State Fault Refusal := runCommand [needsImage s] threshEffect s

/-- GRAY (R204); a depth-8 image is an illegal command (R107 (3)). -/
def execGray (s : State) : Host.Outcome State Fault Refusal :=
  runCommand [needsImage s, (s.hdr.depth == 8, .illegalCommand)]
    (fun s => s.setPix (3 * s.hdr.npix) (fun i => toByte (s.grayOf (i / 3)))) s

end Sys2Proof.Machine
end

