-- ==== Sys2Proof/Machine/Convolution.lean ====
section
/-! DEFINITION. The 3×3 convolution unit and its five commands (43_convolution.md). All neighbourhoods are read from the
image as it was when the command started, which is what the snapshot SNAP holds (R34, R223, R341; DEDUCED, log entry 15). -/

namespace Sys2Proof.Machine

/-- A row of the kernel table: nine integers over a divisor, and a bias (R33, R221, D19). -/
structure Kernel where
  /-- K[i][j], rows top to bottom, columns left to right. -/
  rows : List (List Int)
  /-- DIV. -/
  div : Int
  /-- BIAS. -/
  bias : Int
  deriving DecidableEq, Repr

/-- K[i][j]. -/
def Kernel.coeff (K : Kernel) (i j : Nat) : Int := (K.rows.getD i []).getD j 0

/-- The BLUR row of R221. -/
def kernelBlur : Kernel := { rows := [[1, 1, 1], [1, 1, 1], [1, 1, 1]], div := 9, bias := 0 }

/-- The GAUSS row of R221. -/
def kernelGauss : Kernel := { rows := [[1, 2, 1], [2, 4, 2], [1, 2, 1]], div := 16, bias := 0 }

/-- The OUTLINE row of R221. -/
def kernelOutline : Kernel := { rows := [[-1, -1, -1], [-1, 8, -1], [-1, -1, -1]], div := 1, bias := 0 }

/-- The EMBOSS row of R221. -/
def kernelEmboss : Kernel := { rows := [[-2, -1, 0], [-1, 1, 1], [0, 1, 2]], div := 1, bias := 128 }

/-- The SHARPEN row of R221. -/
def kernelSharpen : Kernel := { rows := [[0, -1, 0], [-1, 5, -1], [0, -1, 0]], div := 1, bias := 0 }

/-- S of R220: the kernel, centred and not mirrored, over the neighbourhood of the interior pixel (y, x) in channel c. -/
def kernelSum (K : Kernel) (s : State) (y x c : Nat) : Int :=
  ((List.range 3).map fun i =>
    ((List.range 3).map fun j => K.coeff i j * s.pixVal (s.hdr.pixIndex (y + i - 1) (x + j - 1) c)).sum).sum

/-- 1 ≤ y ≤ ROWS − 2 and 1 ≤ x ≤ W − 2 (R13). -/
def Header.interior (h : Header) (y x : Nat) : Bool :=
  decide (1 ≤ y) && decide (y + 2 ≤ h.rows) && decide (1 ≤ x) && decide (x + 2 ≤ h.w)

/-- The byte of PIX index `i` after the filter: the rounded, biased, clamped sum for an interior pixel, the old byte for
a border pixel (R220, R223). -/
def filteredByte (K : Kernel) (s : State) (i : Nat) : Byte :=
  let h := s.hdr
  if h.interior (h.rowOf i) (h.colOf i) then
    toByte (clamp8 (rnd (kernelSum K s (h.rowOf i) (h.colOf i) (h.chanOf i)) K.div + K.bias))
  else s.readByte .pix i

/-- applyKernel (R220); an image under 3×3 fails with SizeError (R222). -/
def applyKernel (K : Kernel) (s : State) : Host.Outcome State Fault Refusal :=
  runCommand [needsImage s, (decide (s.hdr.w < 3) || decide (s.hdr.rows < 3), .size)]
    (fun s => s.setPix s.hdr.nbytes (filteredByte K s)) s

/-- BLUR (R224). -/
def execBlur (s : State) : Host.Outcome State Fault Refusal := applyKernel kernelBlur s

/-- GAUSS (R225). -/
def execGauss (s : State) : Host.Outcome State Fault Refusal := applyKernel kernelGauss s

/-- OUTLINE (R226). -/
def execOutline (s : State) : Host.Outcome State Fault Refusal := applyKernel kernelOutline s

/-- EMBOSS (R227). -/
def execEmboss (s : State) : Host.Outcome State Fault Refusal := applyKernel kernelEmboss s

/-- SHARPEN (R228). -/
def execSharpen (s : State) : Host.Outcome State Fault Refusal := applyKernel kernelSharpen s

end Sys2Proof.Machine
end

