-- ==== Sys2Proof/Machine/Equalize.lean ====
section
/-! DEFINITION. The histogram accumulator, the lookup-table generator and EQUALIZE (44_equalize.md). The three tables
are computed from the pixels as they were before the command (R262, R342). -/

namespace Sys2Proof.Machine

/-- HIST[v]: how many of the `n` pixels have level `v`, `level p` being pixel p's (R251, R256). -/
def histCount (level : Nat → Nat) (n v : Nat) : Nat := (List.range n).countP (fun p => level p == v)

/-- CDF: CDF[0] = HIST[0], CDF[i] = CDF[i − 1] + HIST[i] (R252). -/
def cdfCount (hist : Nat → Nat) : Nat → Nat
  | 0 => hist 0
  | i + 1 => cdfCount hist i + hist (i + 1)

/-- LUT of the 8-bit path: rnd(255·CDF[i], TOTAL) (R253). -/
def lutValue8 (cdf : Nat → Nat) (total i : Nat) : Int := rnd (255 * (cdf i : Int)) total

/-- CMIN: CDF at the least level with a non-empty bin (R257). -/
def cdfMin (hist cdf : Nat → Nat) : Nat := cdf (((List.range bins).find? (fun v => decide (hist v > 0))).getD 0)

/-- LUT of the 24-bit path: the identity if D ≤ 0, else 0 below CMIN and the scaled CDF from there on (R257, R258). -/
def lutValue24 (hist cdf : Nat → Nat) (total i : Nat) : Int :=
  let cmin : Int := cdfMin hist cdf
  let d : Int := (total : Int) - cmin
  if d ≤ 0 then i
  else if (cdf i : Int) < cmin then 0
  else clamp8 (rnd (255 * ((cdf i : Int) - cmin)) d)

/-- Y1000 = 299 R + 587 G + 114 B (R255). -/
def lumaScaled (r g b : Int) : Int := 299 * r + 587 * g + 114 * b

/-- U5 = −14713 R − 28886 G + 43600 B (R255). -/
def chromaU (r g b : Int) : Int := -14713 * r - 28886 * g + 43600 * b

/-- V5 = 61500 R − 51499 G − 10001 B (R255). -/
def chromaV (r g b : Int) : Int := 61500 * r - 51499 * g - 10001 * b

/-- IDX = clamp8((Y1000 + 500) div 1000), the rounded, clamped luminance (R255). -/
def lumaIndex (r g b : Int) : Nat := (clamp8 ((lumaScaled r g b + 500) / 1000)).toNat

/-- E = 10^10 (R259). -/
def chromaScale : Int := 10 ^ 10

/-- The red channel of luminance `y` with chrominance `v` (R259). -/
def redOf (y v : Int) : Int := clamp8 (rnd (y * chromaScale + 113983 * v) chromaScale)

/-- The green channel (R259). -/
def greenOf (y u v : Int) : Int := clamp8 (rnd (y * chromaScale - 39465 * u - 58060 * v) chromaScale)

/-- The blue channel (R259). -/
def blueOf (y u : Int) : Int := clamp8 (rnd (y * chromaScale + 203211 * u) chromaScale)

/-- Red of pixel `p` of a depth-24 image. -/
def State.redAt (s : State) (p : Nat) : Int := s.pixVal (3 * p)

/-- Green of pixel `p`. -/
def State.greenAt (s : State) (p : Nat) : Int := s.pixVal (3 * p + 1)

/-- Blue of pixel `p`. -/
def State.blueAt (s : State) (p : Nat) : Int := s.pixVal (3 * p + 2)

/-- The level of pixel `p` that the histogram counts: the index byte on the 8-bit path, IDX on the 24-bit path (R251,
R256). -/
def State.level (s : State) (p : Nat) : Nat :=
  if s.hdr.depth = 8 then (s.readByte .pix p).toNat else lumaIndex (s.redAt p) (s.greenAt p) (s.blueAt p)

/-- HIST[v] of the image (R251, R256). -/
def State.histOf (s : State) (v : Nat) : Nat := histCount s.level s.hdr.npix v

/-- CDF[v] of the image (R252). -/
def State.cdfOf (s : State) (v : Nat) : Nat := cdfCount s.histOf v

/-- LUT[v] of the image (R253, R257, R258). -/
def State.lutOf (s : State) (v : Nat) : Int :=
  if s.hdr.depth = 8 then lutValue8 s.cdfOf s.hdr.npix v else lutValue24 s.histOf s.cdfOf s.hdr.npix v

/-- Channel `c` of pixel `p` after the 24-bit remap and inverse transform (R259). -/
def equalizedChannel (s : State) (p c : Nat) : Int :=
  let y := s.lutOf (s.level p)
  let u := chromaU (s.redAt p) (s.greenAt p) (s.blueAt p)
  let v := chromaV (s.redAt p) (s.greenAt p) (s.blueAt p)
  if c = 0 then redOf y v else if c = 1 then greenOf y u v else blueOf y u

/-- The pixels after EQUALIZE: LUT[PIX[i]] on the 8-bit path (R254), the remapped colour on the 24-bit path (R259). -/
def equalizePixels (s : State) : State :=
  if s.hdr.depth = 8 then s.setPix s.hdr.npix (fun i => toByte (s.lutOf (s.level i)))
  else s.setPix (3 * s.hdr.npix) (fun i => toByte (equalizedChannel s (i / 3) (i % 3)))

/-- The writes of EQUALIZE: the pixels and all 768 table entries (R250, R262). -/
def equalizeEffect (s : State) : State :=
  { equalizePixels s with
    hist := s.hist.fill 0 bins (fun v => BitVec.ofNat 32 (s.histOf v)),
    cdf := s.cdf.fill 0 bins (fun v => BitVec.ofNat 32 (s.cdfOf v)),
    lut := s.lut.fill 0 bins (fun v => toByte (s.lutOf v)) }

/-- EQUALIZE (R250). -/
def execEqualize (s : State) : Host.Outcome State Fault Refusal := runCommand [needsImage s] equalizeEffect s

end Sys2Proof.Machine
end

