-- ==== Sys2Proof/Machine/PixelStore.lean ====
section
/-! DEFINITION. The pixel-store commands NOP, ALLOC and FREE (41_pixel_store.md). -/

namespace Sys2Proof.Machine

/-- NOP (R180): `done`. -/
def execNop (s : State) : Host.Outcome State Fault Refusal := runCommand [] (fun s => s) s

/-- FREE (R185): VALID ← 0, and nothing else but the completion. -/
def execFree (s : State) : Host.Outcome State Fault Refusal := runCommand [] (fun s => { s with valid := false }) s

/-- The header ALLOC builds for width `w`, height `h` (as the registers hold them) and depth `d` (R182). -/
def allocHeader (w h : Word) (d : Nat) : Header :=
  let isize := strideOf (s32 w).toNat (d / 8) * (s32 h).natAbs
  { Header.zero with
    sig := 0x4D42, fsize := BitVec.ofNat 32 (canonOf d + isize), doff := BitVec.ofNat 32 (canonOf d), ihsize := 40,
    width := w, height := h, planes := 1, bpp := BitVec.ofNat 16 d, isize := BitVec.ofNat 32 isize }

/-- The gray ramp ALLOC loads into PAL for depth 8: entry i is the bytes i, i, i, 0 (R183). -/
def rampByte (k : Nat) : Byte := if k % 4 = 3 then 0 else BitVec.ofNat 8 (k / 4)

/-- The checks of ALLOC (R181 steps 1 and 2). -/
def allocChecks (d : Nat) (s : State) : List (Bool × ErrKind) :=
  [(decide (s32 s.arg0 ≤ 0) || decide (s32 s.arg1 = 0) || !(d == 8 || d == 24), .allocation),
   (decide ((s32 s.arg0).toNat * (s32 s.arg1).natAbs * (d / 8) > s.caps.pixCap), .allocation)]

/-- The writes of ALLOC (R181 steps 3 to 5). -/
def allocEffect (d : Nat) (s : State) : State :=
  let hdr := allocHeader s.arg0 s.arg1 d
  { s with
    hdr, valid := true, pix := s.pix.fill 0 hdr.nbytes (fun _ => 0),
    pal := if d = 8 then s.pal.fill 0 paletteSize rampByte else s.pal }

/-- ALLOC (R181). -/
def execAlloc (d : Nat) (s : State) : Host.Outcome State Fault Refusal := runCommand (allocChecks d s) (allocEffect d) s

end Sys2Proof.Machine
end

