-- ==== Sys2Proof/Machine/Dispatch.lean ====
section
/-! DEFINITION. The meaning of every command, one arm each (30_encoding.md R100). -/

namespace Sys2Proof.Machine

/-- What the sequencer does with a decoded command (R106, R107). -/
def exec (i : Instr) (s : State) : Host.Outcome State Fault Refusal :=
  match i with
  | .nop => Sys2Proof.Machine.execNop s
  | .decode8 => Sys2Proof.Machine.execDecode8 s
  | .decode24 => Sys2Proof.Machine.execDecode24 s
  | .encode => Sys2Proof.Machine.execEncode s
  | .alloc depth => Sys2Proof.Machine.execAlloc depth s
  | .free => Sys2Proof.Machine.execFree s
  | .neg => Sys2Proof.Machine.execNeg s
  | .bright => Sys2Proof.Machine.execBright s
  | .thresh => Sys2Proof.Machine.execThresh s
  | .gray => Sys2Proof.Machine.execGray s
  | .blur => Sys2Proof.Machine.execBlur s
  | .gauss => Sys2Proof.Machine.execGauss s
  | .outline => Sys2Proof.Machine.execOutline s
  | .emboss => Sys2Proof.Machine.execEmboss s
  | .sharpen => Sys2Proof.Machine.execSharpen s
  | .equalize => Sys2Proof.Machine.execEqualize s

end Sys2Proof.Machine
end

