-- ==== Sys2Proof/Machine/HostPort.lean ====
section
/-! DEFINITION. The host's side of the block: the REG space (20_memory.md R61), the metadata registers (10_state.md R26)
and the transactions (R62), with the two the spec gives no meaning refused (R67, R74). -/

namespace Sys2Proof.Machine

/-- M_STRIDE (R26): from the width register as an unsigned number; 0 for a depth that is neither 24 nor 8. -/
def Header.mStride (h : Header) : Word :=
  if h.bpp = 24 then BitVec.ofNat 32 (strideOf h.width.toNat 3)
  else if h.bpp = 8 then BitVec.ofNat 32 (strideOf h.width.toNat 1)
  else 0

/-- M_ROWS (R26): |s32(H_HEIGHT)| mod 2^32. -/
def Header.mRows (h : Header) : Word := BitVec.ofNat 32 h.rows

/-- M_DATASIZE (R26): M_STRIDE · M_ROWS mod 2^32. -/
def Header.mDataSize (h : Header) : Word := h.mStride * h.mRows

/-- The REG space as the host reads it: every address of R61 with its value. -/
def State.registers (s : State) : List (Nat × Word) :=
  [(0x00, s.cmd), (0x04, s.arg0), (0x08, s.arg1), (0x0C, s.status), (0x10, s.flen),
   (0x40, s.hdr.sig.setWidth 32), (0x44, s.hdr.fsize), (0x48, s.hdr.res1.setWidth 32), (0x4C, s.hdr.res2.setWidth 32),
   (0x50, s.hdr.doff), (0x54, s.hdr.ihsize), (0x58, s.hdr.width), (0x5C, s.hdr.height),
   (0x60, s.hdr.planes.setWidth 32), (0x64, s.hdr.bpp.setWidth 32), (0x68, s.hdr.compr), (0x6C, s.hdr.isize),
   (0x70, s.hdr.xres), (0x74, s.hdr.yres), (0x78, s.hdr.clrused), (0x7C, s.hdr.clrimp),
   (0x80, s.hdr.width), (0x84, s.hdr.mRows), (0x88, s.hdr.bpp.setWidth 32), (0x8C, s.hdr.mStride),
   (0x90, s.hdr.mDataSize)]

/-- RegRead(a): the register at address `a`; a reserved address reads 0 (R61, R62, R64). -/
def State.regRead (s : State) (a : Nat) : Word := (s.registers.lookup a).getD 0

/-- RegWrite(a, v): a write to CMD stores the word and starts the command (R22, R106; log entry 10); ARG0, ARG1 and FLEN are stored; a
write to a read-only or reserved register does nothing (R61, R62). -/
def State.regWrite (s : State) (a : Nat) (v : Word) : State :=
  if a = 0x00 then { s with cmd := v, busy := true }
  else if a = 0x04 then { s with arg0 := v }
  else if a = 0x08 then { s with arg1 := v }
  else if a = 0x10 then { s with flen := v }
  else s

/-- The number of indices of a byte space (R60). -/
def State.byteExtent (s : State) : ByteSpace → Nat
  | .fmem => s.caps.fileCap
  | .pix => s.caps.pixCap
  | .pal => paletteSize
  | .lut => bins

/-- The number of indices of HIST and CDF (R60). -/
def wordExtent : WordSpace → Nat
  | .hist => bins
  | .cdf => bins

/-- ByteWrite(S, i, v): S[i] ← v for FMEM, PIX and PAL; a write to LUT does nothing (R62). -/
def State.writeByte (s : State) (S : ByteSpace) (i : Nat) (v : Byte) : State :=
  match S with
  | .fmem => { s with fmem := s.fmem.write i v }
  | .pix => { s with pix := s.pix.write i v }
  | .pal => { s with pal := s.pal.write i v }
  | .lut => s

/-- The transaction is allowed while a command runs: only a STATUS read is (R74). -/
def Txn.allowedWhileBusy : Txn → Bool
  | .regRead a => a == 0x0C
  | .regWrite _ _ | .byteRead _ _ | .byteWrite _ _ _ | .wordRead _ _ | .wordWrite _ _ _ => false

/-- The transaction names an index its space has (R60, R67); REG has no bad address, only reserved ones (R64). -/
def Txn.inExtent (s : State) : Txn → Bool
  | .regRead _ | .regWrite _ _ => true
  | .byteRead S i | .byteWrite S i _ => decide (i < s.byteExtent S)
  | .wordRead S i | .wordWrite S i _ => decide (i < wordExtent S)

/-- What a defined transaction does: a read answers and changes nothing else, a write changes what it names (R62). -/
def Txn.effect (s : State) : Txn → State
  | .regRead a => { s with reply := .word (s.regRead a) }
  | .regWrite a v => s.regWrite a v
  | .byteRead S i => { s with reply := .byte (s.readByte S i) }
  | .byteWrite S i v => s.writeByte S i v
  | .wordRead S i => { s with reply := .word (s.readWord S i) }
  | .wordWrite _ _ _ => s

/-- One host transaction as an atomic step (R62, R65), refused where the spec gives it no meaning (R67,
R74; DEDUCED, log entry 8). -/
def performTxn (t : Txn) (s : State) : Host.Outcome State Fault Refusal :=
  if s.busy && !t.allowedWhileBusy then .refused .hostWhileBusy
  else if !(Txn.inExtent s t) then .refused .indexOutOfExtent
  else .next (Txn.effect s t)

end Sys2Proof.Machine
end

