-- ==== Sys2Proof/Machine/Sequencer.lean ====
section
/-! DEFINITION. The sequencer's turn (30_encoding.md R106, R107 (1)) and one event of the run (10_state.md R20,
20_memory.md R69). -/

namespace Sys2Proof.Machine

/-- The sequencer runs the command in CMD; an illegal word fails with IllegalCommandError (R101, R107 (1)). -/
def runCmd (s : State) : Host.Outcome State Fault Refusal :=
  match decode s.cmd with
  | .ok i => exec i s
  | .error _ => .next (s.fail .illegalCommand)

/-- The sequencer's turn: it runs the waiting command, and does nothing while the block is idle (R106, R305; DESIGN
CHOICE, log entry 6). -/
def sequencerTurn (s : State) : Host.Outcome State Fault Refusal := if s.busy then runCmd s else .next s

/-- One event, already taken from the inbox. -/
def handleEvent (e : Event) (s : State) : Host.Outcome State Fault Refusal :=
  match e with
  | .host t => performTxn t s
  | .sequencer => sequencerTurn s
  | .rst => .next s.resetEvent

/-- The next event of the inbox, or, when nothing is pending there, the sequencer's turn: a waiting command is
eventually run (R346), and an idle block stays as it is (R305, R347). The order of events is data (DESIGN CHOICE, log
entry 5). -/
def nextEvent (s : State) : Host.Outcome State Fault Refusal :=
  match s.inbox with
  | [] => sequencerTurn s
  | e :: rest => handleEvent e { s with inbox := rest }

/-- CMD holds the word and BUSY = 1, as the host's CMD write leaves them (R106), and the sequencer's turn comes next. -/
def State.withCommand (s : State) (w : Word) : State :=
  { s with cmd := w, busy := true, inbox := .sequencer :: s.inbox }

end Sys2Proof.Machine
end

