-- ==== Sys2Proof/Machine/Step.lean ====
section
/-! DEFINITION. One step of the whole: the next event of the host's inbox, or the sequencer's turn (10_state.md R20,
20_memory.md R69, 30_encoding.md R106). The block fetches nothing (20_memory.md R72): a command comes to run by being
written to CMD, and `withFetchWord` stands for that write. -/

namespace Sys2Proof.Machine

/-- One step. -/
def step (s : State) : Host.Outcome State Fault Refusal := nextEvent s

/-- `s` with the command of the low `nbits` bits of `w` written to CMD and the sequencer's turn next (log entry 5). -/
def State.withFetchWord (s : State) (nbits w : Nat) : State := s.withCommand (BitVec.ofNat 32 (w % 2 ^ nbits))

end Sys2Proof.Machine
end

