-- ==== Sys2Proof/Safety.lean ====
section
/-! DEFINITION. What counts as a good state and a safe run, in the terms the statements use: the invariants the spec
gives (10_state.md R24), the canonical form and extents of the memories (20_memory.md R60), the conditions under which
DECODE and ALLOC succeed (40_codec.md R130, 41_pixel_store.md R181), and the frame of the transforms (42_pointwise.md
R200, 43_convolution.md R230). -/

namespace Sys2Proof.Machine

/-- The range of the two parameters (R7). -/
abbrev capsOk (c : Caps) : Prop := (1 ≤ c.fileCap ∧ c.fileCap < 2 ^ 32) ∧ 1 ≤ c.pixCap ∧ c.pixCap < 2 ^ 32

/-- What the header registers satisfy while the slot holds an image (R24). -/
abbrev Header.imageOk (h : Header) (pixCap : Nat) : Prop :=
  (h.depth = 8 ∨ h.depth = 24) ∧ 0 < s32 h.width ∧ s32 h.height ≠ 0 ∧ h.nbytes ≤ pixCap ∧ h.sig = 0x4D42 ∧ h.planes = 1
    ∧ h.compr = 0

/-- A memory in canonical form inside its extent (R60, R67). -/
abbrev Memory.ok {w : Nat} (m : Memory w) (extent : Nat) : Prop := m.wf ∧ m.within extent

/-- The six memories are in canonical form and inside their extents (R60, R67). -/
abbrev State.memoriesOk (s : State) : Prop :=
  (s.fmem.ok s.caps.fileCap ∧ s.pix.ok s.caps.pixCap ∧ s.pal.ok paletteSize) ∧ s.lut.ok bins ∧ s.hist.ok bins ∧ s.cdf.ok bins

/-- The invariant of the machine: legal capacities, the image invariant of R24 while VALID = 1, memories in form. -/
abbrev State.Inv (s : State) : Prop :=
  capsOk s.caps ∧ (s.valid = true → s.hdr.imageOk s.caps.pixCap) ∧ s.memoriesOk

/-- The conditions under which DECODE of depth `d` succeeds: every check of R130 steps 1 to 7 passes. -/
abbrev State.fileAccepted (s : State) (d : Nat) : Prop :=
  (54 ≤ s.fileLen ∧ s.readByte .fmem 0 = 0x42 ∧ s.readByte .fmem 1 = 0x4D) ∧
    (s.fileHeader.planes = 1 ∧ s.fileHeader.bpp.toNat = d ∧ s.fileHeader.compr = 0 ∧ 0 < s32 s.fileHeader.width ∧
      s32 s.fileHeader.height ≠ 0) ∧
    (s32 s.fileHeader.width).toNat * s.fileHeader.rows * (d / 8) ≤ s.caps.pixCap ∧ (d = 8 → 1078 ≤ s.fileLen) ∧
    dataOffset s.fileHeader d + strideOf (s32 s.fileHeader.width).toNat (d / 8) * s.fileHeader.rows ≤ s.fileLen

/-- `t` is `s` but for PIX, ERR and BUSY (R200, R230 (e)). -/
abbrev State.onlyPixels (s t : State) : Prop := t = { s with pix := t.pix, err := t.err, busy := t.busy }

/-- The channel `c` of the pixel at canonical (y, x), as an integer (R12). -/
abbrev State.px (s : State) (y x c : Nat) : Int := s.pixVal (s.hdr.pixIndex y x c)

/-- An interior pixel (R13). -/
abbrev Header.isInterior (h : Header) (y x : Nat) : Prop := (1 ≤ y ∧ y + 2 ≤ h.rows) ∧ 1 ≤ x ∧ x + 2 ≤ h.w

/-- The host keeps the rules of R67 and R74 at this state: its next transaction, if it is its turn, is a defined one. -/
abbrev State.hostKeepsRules (s : State) : Prop :=
  ∀ t rest, s.inbox = .host t :: rest → (s.busy = true → t = .regRead 0x0C) ∧ Txn.inExtent s t = true

/-- A run of `k` steps that is never refused. -/
def SafeFor : Nat → State → Prop
  | 0, _ => True
  | k + 1, s => ∃ t, step s = .next t ∧ SafeFor k t

end Sys2Proof.Machine
end

