-- ==== Sys2Proof/Certificates/Slice0/Obligations.lean ====
section
/-! DEFINITION. The statements for the provers. Each docstring names the rules of spec/ it formalises. A statement about
the unspecified contents of unwritten memory holds for every draw and for every value of the free values; a statement
about every state holds for every pair of capacities, unless it assumes the range of R7 (`capsOk`) or the invariant
`State.Inv`, which `EveryStepKeepsTheInvariant` shows every run keeps. -/

open Sys2Proof Sys2Proof.Machine

/-! ### Encoding -/

/-- R90, R100: no bit of a command's encoding is dropped. -/
def Obligations.DecodeOfEncodeIsTheCommand : Prop :=
  ∀ i : Instr, i.wellFormed = true → decode (encode i) = .ok i

/-- R90, R100, R102: every legal word is the one encoding of one well-formed command. -/
def Obligations.LegalWordsAreEncodedCommands : Prop :=
  ∀ (w : Word) (i : Instr), decode w = .ok i → i.wellFormed = true ∧ encode i = w

/-- R101: a word is illegal exactly by one of the clauses (a) to (d); running an illegal word leaves ERR = 7 and changes
nothing else; ALLOC with another depth than 8 and 24 is a legal word that fails with AllocationError. That the sequencer
runs when the inbox is empty or has its turn first is the model's form of R106 (log entry 5). -/
def Obligations.IllegalWordsAreExactlyTheReservedOnes : Prop :=
  (∀ w : Word, (∃ e, decode w = .error e) ↔
    (w.toNat / 65536 ≠ 0 ∨
      w.toNat % 256 ∉ [0x00, 0x01, 0x02, 0x03, 0x04, 0x10, 0x11, 0x12, 0x13, 0x20, 0x21, 0x22, 0x23, 0x24, 0x30] ∨
      (w.toNat % 256 ≠ 0x01 ∧ w.toNat % 256 ≠ 0x03 ∧ w.toNat / 256 % 256 ≠ 0) ∨
      (w.toNat % 256 = 0x01 ∧ w.toNat / 256 % 256 ∉ [8, 24]))) ∧
  (∀ (s : State) (e : Illegal) (rest : List Event), s.busy = true → decode s.cmd = .error e →
    (s.inbox = [] → step s = .next { s with err := .illegalCommand, busy := false }) ∧
    (s.inbox = .sequencer :: rest →
      step s = .next { s with err := .illegalCommand, busy := false, inbox := rest })) ∧
  (∀ (s : State) (w : Word), w.toNat / 65536 = 0 → w.toNat % 256 = 0x03 → w.toNat / 256 % 256 ∉ [8, 24] →
    decode w = .ok (.alloc (w.toNat / 256 % 256)) ∧
      exec (.alloc (w.toNat / 256 % 256)) s = .next { s with err := .allocation, busy := false }) ∧
  ErrKind.illegalCommand.code = 7

/-- R100: the full command words of the opcode map name their commands (sanity). -/
def Obligations.OpcodeMapWordsNameTheirCommands : Prop :=
  [0x00000000#32, 0x00000801#32, 0x00001801#32, 0x00000002#32, 0x00000803#32, 0x00001803#32, 0x00000004#32,
    0x00000010#32, 0x00000011#32, 0x00000012#32, 0x00000013#32, 0x00000020#32, 0x00000021#32, 0x00000022#32,
    0x00000023#32, 0x00000024#32, 0x00000030#32].map (fun w => (decode w).toOption)
  = [some .nop, some .decode8, some .decode24, some .encode, some (.alloc 8), some (.alloc 24), some .free,
    some .neg, some .bright, some .thresh, some .gray, some .blur, some .gauss, some .outline,
    some .emboss, some .sharpen, some .equalize]

/-! ### The sequencer -/

/-- R106: when it is the sequencer's turn and a command is waiting, the step is the command's meaning at that state, the
turn taken from the inbox; `withFetchWord` is that situation for a given word. -/
def Obligations.StepRunsTheDecodedCommand : Prop :=
  (∀ (s : State) (i : Instr) (rest : List Event), s.busy = true → decode s.cmd = .ok i →
    (s.inbox = [] → step s = exec i s) ∧ (s.inbox = .sequencer :: rest → step s = exec i { s with inbox := rest })) ∧
  (∀ (s : State) (w : Nat) (i : Instr), w < 2 ^ 32 → decode (BitVec.ofNat 32 w) = .ok i →
    decodeTableWord 32 w = some i ∧
      step (s.withFetchWord 32 w) = exec i { s with cmd := BitVec.ofNat 32 w, busy := true })

/-- R106 first sentence, R24, R305: a CMD write while idle stores the word and sets BUSY, and ERR keeps its old value; an
idle block with no host action pending stays as it is. The latter is the model's choice (log entry 6). -/
def Obligations.CommandWriteSetsBusyAndIdleBlockWaits : Prop :=
  (∀ (s : State) (v : Word) (rest : List Event), s.busy = false → s.inbox = .host (.regWrite 0x00 v) :: rest →
    step s = .next { s with cmd := v, busy := true, inbox := rest }) ∧
  (∀ s : State, s.busy = false → s.inbox = [] → step s = .next s)

/-- R295, R296: every command answers a next state, idle, and where it ends in an error nothing but ERR and BUSY has
changed. -/
def Obligations.EveryCommandEndsAndErrorsChangeNothing : Prop :=
  ∀ (i : Instr) (s : State), ∃ t, exec i s = .next t ∧ t.busy = false ∧
    (t.err ≠ .ok → t = { s with err := t.err, busy := false })

/-- R60 ("written by commands"), R23, R27, R32: what each command may write. No command writes CMD, ARG0, ARG1; only
ENCODE writes FMEM and FLEN; only DECODE and ALLOC write the header registers and PAL; only they and FREE write VALID;
only EQUALIZE writes HIST, CDF and LUT; NOP, FREE and ENCODE leave PIX. -/
def Obligations.CommandsWriteOnlyTheirOwnState : Prop :=
  ∀ (i : Instr) (s t : State), exec i s = .next t →
    (t.caps = s.caps ∧ t.cmd = s.cmd ∧ t.arg0 = s.arg0 ∧ t.arg1 = s.arg1 ∧ t.draw = s.draw ∧ t.inbox = s.inbox ∧
      t.reply = s.reply) ∧
    (i ≠ .encode → t.fmem = s.fmem ∧ t.flen = s.flen) ∧
    (i ≠ .decode8 → i ≠ .decode24 → (∀ d, i ≠ .alloc d) → t.hdr = s.hdr ∧ t.pal = s.pal ∧ (i ≠ .free → t.valid = s.valid)) ∧
    (i ≠ .equalize → t.hist = s.hist ∧ t.cdf = s.cdf ∧ t.lut = s.lut) ∧
    (i ∈ [.nop, .free, .encode] → t.pix = s.pix)

/-- R291 ("No other condition produces an error"): a command that ends in an error kind does so for a cause the table
lists for that kind and command. (Illegal words are `IllegalWordsAreExactlyTheReservedOnes`.) -/
def Obligations.ErrorsHaveOnlyTheListedCauses : Prop :=
  ∀ (i : Instr) (s t : State), exec i s = .next t →
    let f := s.fileHeader
    let w := (s32 f.width).toNat
    let isDecode := i = .decode8 ∨ i = .decode24
    (t.err = .format → isDecode ∧ (s.fileLen < 54 ∨ s.readByte .fmem 0 ≠ 0x42 ∨ s.readByte .fmem 1 ≠ 0x4D)) ∧
    (t.err = .unsupportedFormat → isDecode ∧
      (f.planes ≠ 1 ∨ f.bpp.toNat ≠ i.imm8 ∨ f.compr ≠ 0 ∨ s32 f.width ≤ 0 ∨ s32 f.height = 0)) ∧
    (t.err = .truncatedData → isDecode ∧
      ((i = .decode8 ∧ s.fileLen < 1078) ∨ dataOffset f i.imm8 + strideOf w (i.imm8 / 8) * f.rows > s.fileLen)) ∧
    (t.err = .allocation → (isDecode ∧ w * f.rows * (i.imm8 / 8) > s.caps.pixCap) ∨
      ∃ d, i = .alloc d ∧ (s32 s.arg0 ≤ 0 ∨ s32 s.arg1 = 0 ∨ (d ≠ 8 ∧ d ≠ 24) ∨
        (s32 s.arg0).toNat * (s32 s.arg1).natAbs * (d / 8) > s.caps.pixCap)) ∧
    (t.err = .io → i = .encode ∧ s.hdr.canon + s.hdr.stride * s.hdr.rows > s.caps.fileCap) ∧
    (t.err = .size → i ∈ [.blur, .gauss, .outline, .emboss, .sharpen] ∧ (s.hdr.w < 3 ∨ s.hdr.rows < 3)) ∧
    (t.err = .illegalCommand →
      (i ∈ [.encode, .neg, .bright, .thresh, .gray, .blur, .gauss, .outline, .emboss, .sharpen, .equalize] ∧
        s.valid = false) ∨ (i = .gray ∧ s.hdr.depth = 8))

/-- R107: (1) an illegal word, (2) a command that needs an image without one, (3) GRAY on a depth-8 image fail with
IllegalCommandError and change nothing else. The inbox and the sequencer's turn in (1) are the model's (log entry 5). -/
def Obligations.CommonChecksFailWithIllegalCommand : Prop :=
  (∀ (s : State) (e : Illegal) (rest : List Event), s.busy = true → decode s.cmd = .error e →
    (s.inbox = [] → step s = .next { s with err := .illegalCommand, busy := false }) ∧
    (s.inbox = .sequencer :: rest →
      step s = .next { s with err := .illegalCommand, busy := false, inbox := rest })) ∧
  (∀ (i : Instr) (s : State),
    i ∈ [.encode, .neg, .bright, .thresh, .gray, .blur, .gauss, .outline, .emboss, .sharpen, .equalize] →
    s.valid = false → exec i s = .next { s with err := .illegalCommand, busy := false }) ∧
  (∀ s : State, s.hdr.depth = 8 → exec .gray s = .next { s with err := .illegalCommand, busy := false })

/-! ### The pixel store -/

/-- R180: NOP (word 0) only completes; a word with OP = 0 and other bits set is illegal. The inbox and the sequencer's turn
are the model's (log entry 5). -/
def Obligations.NopOnlyClearsTheError : Prop :=
  (∀ s : State, exec .nop s = .next { s with err := .ok, busy := false }) ∧
  (∀ (s : State) (rest : List Event), s.busy = true → s.cmd.toNat % 256 = 0 →
    let k : ErrKind := if s.cmd = 0 then .ok else .illegalCommand
    (s.inbox = [] → step s = .next { s with err := k, busy := false }) ∧
    (s.inbox = .sequencer :: rest → step s = .next { s with err := k, busy := false, inbox := rest }))

/-- R185: FREE clears VALID and completes, with or without an image, and every command that needs an image then fails. -/
def Obligations.FreeReleasesTheImage : Prop :=
  ∀ s : State, exec .free s = .next { s with valid := false, err := .ok, busy := false } ∧
    ∀ (t : State) (i : Instr), exec .free s = .next t →
      i ∈ [.encode, .neg, .bright, .thresh, .gray, .blur, .gauss, .outline, .emboss, .sharpen, .equalize] →
      exec i t = .next { t with err := .illegalCommand, busy := false }

/-- R181 steps 3 to 6, R182, R183: with legal operands ALLOC builds the canonical header, a zero image and, for depth 8,
the gray-ramp palette, and touches nothing else (R184 (f), (g)). -/
def Obligations.AllocBuildsTheImage : Prop :=
  ∀ (s : State) (d : Nat), d = 8 ∨ d = 24 → 0 < s32 s.arg0 → s32 s.arg1 ≠ 0 →
    (s32 s.arg0).toNat * (s32 s.arg1).natAbs * (d / 8) ≤ s.caps.pixCap →
    let w := (s32 s.arg0).toNat
    let rows := (s32 s.arg1).natAbs
    let stride := (w * (d / 8) + 3) / 4 * 4
    let canon := if d = 24 then 54 else 1078
    ∃ t, exec (.alloc d) s = .next t ∧ t.err = .ok ∧ t.busy = false ∧ t.valid = true ∧
      t.hdr = {
        sig := 0x4D42, fsize := BitVec.ofNat 32 (canon + stride * rows), res1 := 0, res2 := 0,
        doff := BitVec.ofNat 32 canon, ihsize := 40, width := s.arg0, height := s.arg1, planes := 1,
        bpp := BitVec.ofNat 16 d, compr := 0, isize := BitVec.ofNat 32 (stride * rows), xres := 0, yres := 0,
        clrused := 0, clrimp := 0 } ∧
      (∀ i, i < w * rows * (d / 8) → t.readByte .pix i = 0) ∧
      (∀ i, w * rows * (d / 8) ≤ i → t.readByte .pix i = s.readByte .pix i) ∧
      (d = 8 → ∀ i, i < 256 → (t.readByte .pal (4 * i)).toNat = i ∧ (t.readByte .pal (4 * i + 1)).toNat = i ∧
        (t.readByte .pal (4 * i + 2)).toNat = i ∧ (t.readByte .pal (4 * i + 3)).toNat = 0) ∧
      (d = 24 → t.pal = s.pal) ∧
      t = { s with hdr := t.hdr, valid := t.valid, pix := t.pix, pal := t.pal, err := t.err, busy := t.busy }

/-- R181 steps 1 and 2, R184 (a), (c), (d), (h): every failing precondition of ALLOC is AllocationError and leaves
everything else. -/
def Obligations.AllocRejectsBadOperands : Prop :=
  ∀ (s : State) (d : Nat),
    (s32 s.arg0 ≤ 0 ∨ s32 s.arg1 = 0 ∨ (d ≠ 8 ∧ d ≠ 24) ∨
      (s32 s.arg0).toNat * (s32 s.arg1).natAbs * (d / 8) > s.caps.pixCap) →
    exec (.alloc d) s = .next { s with err := .allocation, busy := false }

/-! ### DECODE -/

/-- R130 steps 1 to 7, R293: DECODE reports the first failing check in the order length, signature, fields, capacity,
palette, rows, and leaves everything else (R143). -/
def Obligations.DecodeReportsTheFirstFailingCheck : Prop :=
  ∀ (i : Instr) (d : Nat) (s : State), (i = .decode8 ∧ d = 8) ∨ (i = .decode24 ∧ d = 24) →
    let m := s.readByte .fmem
    let L := min s.flen.toNat s.caps.fileCap
    let width := s32 (BitVec.ofNat 32 (u32le m 18))
    let height := s32 (BitVec.ofNat 32 (u32le m 22))
    let stride := (width.toNat * (d / 8) + 3) / 4 * 4
    let canon := if d = 24 then 54 else 1078
    let off := if u32le m 10 ≠ 0 then u32le m 10 else canon
    let badLength := L < 54
    let badSignature := m 0 ≠ 0x42 ∨ m 1 ≠ 0x4D
    let badFields := u16le m 26 ≠ 1 ∨ u16le m 28 ≠ d ∨ u32le m 30 ≠ 0 ∨ width ≤ 0 ∨ height = 0
    let tooLarge := width.toNat * height.natAbs * (d / 8) > s.caps.pixCap
    let truncated := (d = 8 ∧ L < 1078) ∨ off + stride * height.natAbs > L
    let fails (k : ErrKind) := exec i s = .next { s with err := k, busy := false }
    (badLength → fails .format) ∧
    (¬badLength → badSignature → fails .format) ∧
    (¬badLength → ¬badSignature → badFields → fails .unsupportedFormat) ∧
    (¬badLength → ¬badSignature → ¬badFields → tooLarge → fails .allocation) ∧
    (¬badLength → ¬badSignature → ¬badFields → ¬tooLarge → truncated → fails .truncatedData) ∧
    (¬badLength → ¬badSignature → ¬badFields → ¬tooLarge → ¬truncated → s.fileAccepted d)

/-- R133, R138: an accepted file's sixteen fields, little-endian at their offsets, are the header registers afterwards,
and the slot holds an image. -/
def Obligations.DecodeCommitsTheSixteenFields : Prop :=
  ∀ (i : Instr) (d : Nat) (s : State), (i = .decode8 ∧ d = 8) ∨ (i = .decode24 ∧ d = 24) → s.fileAccepted d →
    let m := s.readByte .fmem
    ∃ t, exec i s = .next t ∧ t.err = .ok ∧ t.busy = false ∧ t.valid = true ∧
      t.hdr.sig = 0x4D42 ∧ t.hdr.sig.toNat = u16le m 0 ∧ t.hdr.fsize.toNat = u32le m 2 ∧ t.hdr.res1.toNat = u16le m 6 ∧
      t.hdr.res2.toNat = u16le m 8 ∧ t.hdr.doff.toNat = u32le m 10 ∧ t.hdr.ihsize.toNat = u32le m 14 ∧
      t.hdr.width.toNat = u32le m 18 ∧ t.hdr.height.toNat = u32le m 22 ∧ t.hdr.planes.toNat = u16le m 26 ∧
      t.hdr.bpp.toNat = u16le m 28 ∧ t.hdr.compr.toNat = u32le m 30 ∧ t.hdr.isize.toNat = u32le m 34 ∧
      t.hdr.xres.toNat = u32le m 38 ∧ t.hdr.yres.toNat = u32le m 42 ∧ t.hdr.clrused.toNat = u32le m 46 ∧
      t.hdr.clrimp.toNat = u32le m 50

/-- R130 step 10, R136, R140, R141, R142: file row r of an accepted file is canonical row rows − 1 − r when the height
is positive and r when it is negative, each blue-green-red triple stored as red, green, blue, each index byte as it is;
bytes of PIX at NBYTES and above stay (R144 (j)). -/
def Obligations.DecodeCopiesRowsInCanonicalOrder : Prop :=
  ∀ (i : Instr) (d : Nat) (s : State), (i = .decode8 ∧ d = 8) ∨ (i = .decode24 ∧ d = 24) → s.fileAccepted d →
    let m := s.readByte .fmem
    let height := s32 (BitVec.ofNat 32 (u32le m 22))
    let w := (s32 (BitVec.ofNat 32 (u32le m 18))).toNat
    let rows := height.natAbs
    let stride := (w * (d / 8) + 3) / 4 * 4
    let canon := if d = 24 then 54 else 1078
    let off := if u32le m 10 ≠ 0 then u32le m 10 else canon
    ∃ t, exec i s = .next t ∧ t.err = .ok ∧ t.busy = false ∧
      (∀ r x, r < rows → x < w →
        let y := if height > 0 then rows - 1 - r else r
        let base := off + r * stride
        (d = 24 → t.readByte .pix ((y * w + x) * 3 + 0) = m (base + 3 * x + 2) ∧
          t.readByte .pix ((y * w + x) * 3 + 1) = m (base + 3 * x + 1) ∧
          t.readByte .pix ((y * w + x) * 3 + 2) = m (base + 3 * x + 0)) ∧
        (d = 8 → t.readByte .pix (y * w + x) = m (base + x))) ∧
      (∀ j, w * rows * (d / 8) ≤ j → t.readByte .pix j = s.readByte .pix j)

/-- R139, R130: DECODE 8 copies the palette from offset 54 whatever the pixel offset, DECODE 24 leaves PAL, and a
successful DECODE changes only the header registers, VALID, PIX, PAL, ERR and BUSY: never FMEM or FLEN (R30). -/
def Obligations.DecodeCopiesThePaletteAndKeepsTheFile : Prop :=
  ∀ (i : Instr) (d : Nat) (s : State), (i = .decode8 ∧ d = 8) ∨ (i = .decode24 ∧ d = 24) → s.fileAccepted d →
    ∃ t, exec i s = .next t ∧ t.err = .ok ∧
      (d = 8 → ∀ k, k < 1024 → t.readByte .pal k = s.readByte .fmem (54 + k)) ∧
      (d = 24 → t.pal = s.pal) ∧
      t = { s with hdr := t.hdr, valid := t.valid, pix := t.pix, pal := t.pal, err := t.err, busy := t.busy }

/-- R141, R142, U1: two files that differ only in row padding bytes beyond the header and palette are decoded to the same
registers, pixels and palette. -/
def Obligations.DecodeIgnoresPaddingBytes : Prop :=
  ∀ (i : Instr) (d : Nat) (s : State) (m' : Memory 8), (i = .decode8 ∧ d = 8) ∨ (i = .decode24 ∧ d = 24) →
    let s' : State := { s with fmem := m' }
    let f := s.fileHeader
    let w := (s32 f.width).toNat
    let stride := strideOf w (d / 8)
    (∀ k, k < canonOf d → s'.readByte .fmem k = s.readByte .fmem k) →
    (∀ r j, r < f.rows → j < w * (d / 8) →
      s'.readByte .fmem (dataOffset f d + r * stride + j) = s.readByte .fmem (dataOffset f d + r * stride + j)) →
    ∃ t t', exec i s = .next t ∧ exec i s' = .next t' ∧ t'.err = t.err ∧ t'.valid = t.valid ∧ t'.hdr = t.hdr ∧
      (∀ k, t'.readByte .pix k = t.readByte .pix k) ∧ (∀ k, t'.readByte .pal k = t.readByte .pal k)

/-! ### ENCODE -/

/-- R150 step 3, R151, R153: the emitted header has the recomputed sizes, the canonical offset and a positive height, and
the other fields as the registers hold them. -/
def Obligations.EncodeEmitsTheRecomputedHeader : Prop :=
  ∀ s : State, s.Inv → s.valid = true → s.hdr.canon + s.hdr.stride * s.hdr.rows ≤ s.caps.fileCap →
    ∃ t, exec .encode s = .next t ∧ t.err = .ok ∧ t.busy = false ∧
      let m := t.readByte .fmem
      m 0 = 0x42 ∧ m 1 = 0x4D ∧ u32le m 2 = s.hdr.canon + s.hdr.stride * s.hdr.rows ∧ u16le m 6 = s.hdr.res1.toNat ∧
      u16le m 8 = s.hdr.res2.toNat ∧ u32le m 10 = s.hdr.canon ∧ u32le m 14 = s.hdr.ihsize.toNat ∧
      u32le m 18 = s.hdr.width.toNat ∧ u32le m 22 = s.hdr.rows ∧ u16le m 26 = 1 ∧ u16le m 28 = s.hdr.depth ∧
      u32le m 30 = 0 ∧ u32le m 34 = s.hdr.stride * s.hdr.rows ∧ u32le m 38 = s.hdr.xres.toNat ∧
      u32le m 42 = s.hdr.yres.toNat ∧ u32le m 46 = s.hdr.clrused.toNat ∧ u32le m 50 = s.hdr.clrimp.toNat

/-- R154, R155: the palette for depth 8, then the rows bottom-up from the canonical offset, blue-green-red for depth 24,
every padding byte zero. -/
def Obligations.EncodeEmitsRowsBottomUp : Prop :=
  ∀ s : State, s.Inv → s.valid = true → s.hdr.canon + s.hdr.stride * s.hdr.rows ≤ s.caps.fileCap →
    let h := s.hdr
    ∃ t, exec .encode s = .next t ∧ t.err = .ok ∧
      (h.depth = 8 → ∀ k, k < 1024 → t.readByte .fmem (54 + k) = s.readByte .pal k) ∧
      (∀ r, r < h.rows →
        let y := h.rows - 1 - r
        let base := h.canon + r * h.stride
        (∀ x, x < h.w →
          (h.depth = 24 → t.readByte .fmem (base + 3 * x + 0) = s.readByte .pix ((y * h.w + x) * 3 + 2) ∧
            t.readByte .fmem (base + 3 * x + 1) = s.readByte .pix ((y * h.w + x) * 3 + 1) ∧
            t.readByte .fmem (base + 3 * x + 2) = s.readByte .pix ((y * h.w + x) * 3 + 0)) ∧
          (h.depth = 8 → t.readByte .fmem (base + x) = s.readByte .pix (y * h.w + x))) ∧
        (∀ k, h.w * h.bppb ≤ k → k < h.stride → t.readByte .fmem (base + k) = 0))

/-- R156, R157 (a): FLEN is the file size, bytes from there on keep their values, and nothing of the image slot
changes. -/
def Obligations.EncodeSetsTheLengthAndKeepsTheImage : Prop :=
  ∀ s : State, capsOk s.caps → s.valid = true → s.hdr.canon + s.hdr.stride * s.hdr.rows ≤ s.caps.fileCap →
    ∃ t, exec .encode s = .next t ∧ t.err = .ok ∧
      t.flen.toNat = s.hdr.canon + s.hdr.stride * s.hdr.rows ∧
      (∀ k, s.hdr.canon + s.hdr.stride * s.hdr.rows ≤ k → t.readByte .fmem k = s.readByte .fmem k) ∧
      t = { s with fmem := t.fmem, flen := t.flen, err := t.err, busy := t.busy }

/-- R152: a file larger than FMEM is an IOError found before any byte is written. -/
def Obligations.EncodeRejectsFilesLargerThanFmem : Prop :=
  ∀ s : State, s.valid = true → s.hdr.canon + s.hdr.stride * s.hdr.rows > s.caps.fileCap →
    exec .encode s = .next { s with err := .io, busy := false }

/-- R158: decoding what ENCODE wrote restores the image: dimensions, depth, every pixel byte and, for depth 8, the palette;
the header registers are those before but for the recomputed sizes, the offset and the now positive height. -/
def Obligations.DecodeAfterEncodeRestoresTheImage : Prop :=
  ∀ s : State, s.Inv → s.valid = true → s.hdr.canon + s.hdr.stride * s.hdr.rows ≤ s.caps.fileCap →
    ∃ t u, exec .encode s = .next t ∧ exec (if s.hdr.depth = 8 then .decode8 else .decode24) t = .next u ∧
      u.err = .ok ∧ u.valid = true ∧ u.hdr.w = s.hdr.w ∧ u.hdr.rows = s.hdr.rows ∧ u.hdr.depth = s.hdr.depth ∧
      (∀ i, i < s.hdr.nbytes → u.readByte .pix i = s.readByte .pix i) ∧
      (s.hdr.depth = 8 → ∀ k, k < 1024 → u.readByte .pal k = s.readByte .pal k) ∧
      u.hdr = { s.hdr with
        fsize := BitVec.ofNat 32 (s.hdr.canon + s.hdr.stride * s.hdr.rows), doff := BitVec.ofNat 32 s.hdr.canon,
        isize := BitVec.ofNat 32 (s.hdr.stride * s.hdr.rows), height := BitVec.ofNat 32 s.hdr.rows }

/-- R157 (b): a second ENCODE gives the same file and length. -/
def Obligations.EncodeTwiceGivesTheSameFile : Prop :=
  ∀ s : State, s.valid = true → s.hdr.canon + s.hdr.stride * s.hdr.rows ≤ s.caps.fileCap →
    ∃ t u, exec .encode s = .next t ∧ exec .encode t = .next u ∧ t.err = .ok ∧ u.err = .ok ∧ u.flen = t.flen ∧
      ∀ k, u.readByte .fmem k = t.readByte .fmem k

/-! ### The pointwise transforms -/

/-- R201: every byte of the image becomes 255 minus itself, nothing else changes (R200), and a second NEG restores every
byte; without an image the command is illegal. -/
def Obligations.NegComplementsEveryByteAndIsAnInvolution : Prop :=
  decode 0x00000010 = .ok .neg ∧
  (∀ s : State, s.valid = false → exec .neg s = .next { s with err := .illegalCommand, busy := false }) ∧
  ∀ s : State, s.valid = true →
    ∃ t, exec .neg s = .next t ∧ t.err = .ok ∧ t.busy = false ∧ s.onlyPixels t ∧
      (∀ i, i < s.hdr.nbytes → (t.readByte .pix i).toNat = 255 - (s.readByte .pix i).toNat) ∧
      (∀ i, s.hdr.nbytes ≤ i → t.readByte .pix i = s.readByte .pix i) ∧
      ∃ u, exec .neg t = .next u ∧ u.err = .ok ∧ ∀ i, u.readByte .pix i = s.readByte .pix i

/-- R202: every byte of the image becomes clamp8(v + s32(ARG0)), the sum formed over the integers. -/
def Obligations.BrightAddsAndSaturates : Prop :=
  decode 0x00000011 = .ok .bright ∧
  (∀ s : State, s.valid = false → exec .bright s = .next { s with err := .illegalCommand, busy := false }) ∧
  ∀ s : State, s.valid = true →
    ∃ t, exec .bright s = .next t ∧ t.err = .ok ∧ t.busy = false ∧ s.onlyPixels t ∧
      (∀ i, i < s.hdr.nbytes →
        let v : Int := (s.readByte .pix i).toNat + s32 s.arg0
        ((t.readByte .pix i).toNat : Int) = if v < 0 then 0 else if v > 255 then 255 else v) ∧
      (∀ i, s.hdr.nbytes ≤ i → t.readByte .pix i = s.readByte .pix i)

/-- R203: on depth 8 each byte against the unclamped t; on depth 24 the truncated mean of the pixel against t clamped to
0..255, all three channels set alike. -/
def Obligations.ThreshComparesWithTheOperand : Prop :=
  decode 0x00000012 = .ok .thresh ∧
  (∀ s : State, s.valid = false → exec .thresh s = .next { s with err := .illegalCommand, busy := false }) ∧
  ∀ s : State, s.valid = true →
    let t0 := s32 s.arg0
    let old (i : Nat) : Nat := (s.readByte .pix i).toNat
    ∃ t, exec .thresh s = .next t ∧ t.err = .ok ∧ t.busy = false ∧ s.onlyPixels t ∧
      (s.hdr.depth = 8 →
        (∀ i, i < s.hdr.npix → (t.readByte .pix i).toNat = if (old i : Int) ≥ t0 then 255 else 0) ∧
        (∀ i, s.hdr.npix ≤ i → t.readByte .pix i = s.readByte .pix i)) ∧
      (s.hdr.depth = 24 →
        (∀ p c, p < s.hdr.npix → c < 3 → (t.readByte .pix (3 * p + c)).toNat =
          if (((old (3 * p) + old (3 * p + 1) + old (3 * p + 2)) / 3 : Nat) : Int) ≥ min (max t0 0) 255
          then 255 else 0) ∧
        (∀ i, 3 * s.hdr.npix ≤ i → t.readByte .pix i = s.readByte .pix i))

/-- R204: each pixel of a depth-24 image becomes three copies of its truncated mean; on depth 8 the command is
illegal. -/
def Obligations.GrayReplacesChannelsByTheirMean : Prop :=
  decode 0x00000013 = .ok .gray ∧
  (∀ s : State, s.valid = false ∨ s.hdr.depth = 8 →
    exec .gray s = .next { s with err := .illegalCommand, busy := false }) ∧
  ∀ s : State, s.valid = true → s.hdr.depth = 24 →
    let old (i : Nat) : Nat := (s.readByte .pix i).toNat
    ∃ t, exec .gray s = .next t ∧ t.err = .ok ∧ t.busy = false ∧ s.onlyPixels t ∧
      (∀ p c, p < s.hdr.npix → c < 3 →
        (t.readByte .pix (3 * p + c)).toNat = (old (3 * p) + old (3 * p + 1) + old (3 * p + 2)) / 3) ∧
      (∀ i, 3 * s.hdr.npix ≤ i → t.readByte .pix i = s.readByte .pix i)

/-- R203, R204 corner cases: GRAY is idempotent, and THRESH is for 1 ≤ t ≤ 255. -/
def Obligations.GrayAndThreshAreIdempotent : Prop :=
  (∀ s : State, s.valid = true → s.hdr.depth ≠ 8 →
    ∃ t u, exec .gray s = .next t ∧ exec .gray t = .next u ∧ u.err = .ok ∧
      ∀ i, u.readByte .pix i = t.readByte .pix i) ∧
  (∀ s : State, s.valid = true → 1 ≤ s32 s.arg0 → s32 s.arg0 ≤ 255 →
    ∃ t u, exec .thresh s = .next t ∧ exec .thresh t = .next u ∧ u.err = .ok ∧
      ∀ i, u.readByte .pix i = t.readByte .pix i)

/-! ### The convolutions -/

/-- R222: on an image with a side under 3 every filter fails with SizeError and leaves the image. -/
def Obligations.FiltersRejectImagesUnderThreeByThree : Prop :=
  ∀ (i : Instr) (s : State), i ∈ [.blur, .gauss, .outline, .emboss, .sharpen] → s.valid = true →
    s.hdr.w < 3 ∨ s.hdr.rows < 3 → exec i s = .next { s with err := .size, busy := false }

/-- R220, R221, R224: BLUR sets each interior byte to the rounded ninth of the nine bytes around it. -/
def Obligations.BlurAveragesTheNeighbourhood : Prop :=
  ∀ s : State, s.valid = true → 3 ≤ s.hdr.w → 3 ≤ s.hdr.rows →
    ∃ t, exec .blur s = .next t ∧ t.err = .ok ∧ t.busy = false ∧ s.onlyPixels t ∧
      ∀ y x c, s.hdr.isInterior y x → c < s.hdr.bppb →
        t.px y x c = rnd (s.px (y - 1) (x - 1) c + s.px (y - 1) x c + s.px (y - 1) (x + 1) c
          + s.px y (x - 1) c + s.px y x c + s.px y (x + 1) c
          + s.px (y + 1) (x - 1) c + s.px (y + 1) x c + s.px (y + 1) (x + 1) c) 9

/-- R220, R221, R225: GAUSS weights the neighbourhood 1 2 1 / 2 4 2 / 1 2 1 over 16. -/
def Obligations.GaussWeightsTheNeighbourhood : Prop :=
  ∀ s : State, s.valid = true → 3 ≤ s.hdr.w → 3 ≤ s.hdr.rows →
    ∃ t, exec .gauss s = .next t ∧ t.err = .ok ∧ t.busy = false ∧ s.onlyPixels t ∧
      ∀ y x c, s.hdr.isInterior y x → c < s.hdr.bppb →
        t.px y x c = rnd (s.px (y - 1) (x - 1) c + 2 * s.px (y - 1) x c + s.px (y - 1) (x + 1) c
          + 2 * s.px y (x - 1) c + 4 * s.px y x c + 2 * s.px y (x + 1) c
          + s.px (y + 1) (x - 1) c + 2 * s.px (y + 1) x c + s.px (y + 1) (x + 1) c) 16

/-- R220, R221, R226: OUTLINE is 8 times the centre minus its eight neighbours, clamped. -/
def Obligations.OutlineSubtractsTheNeighbours : Prop :=
  ∀ s : State, s.valid = true → 3 ≤ s.hdr.w → 3 ≤ s.hdr.rows →
    ∃ t, exec .outline s = .next t ∧ t.err = .ok ∧ t.busy = false ∧ s.onlyPixels t ∧
      ∀ y x c, s.hdr.isInterior y x → c < s.hdr.bppb →
        t.px y x c = clamp8 (8 * s.px y x c - (s.px (y - 1) (x - 1) c + s.px (y - 1) x c + s.px (y - 1) (x + 1) c
          + s.px y (x - 1) c + s.px y (x + 1) c
          + s.px (y + 1) (x - 1) c + s.px (y + 1) x c + s.px (y + 1) (x + 1) c))

/-- R220, R221, R227: EMBOSS weights the upper left −2 and the lower right +2, adds 128 after rounding, and clamps. -/
def Obligations.EmbossIsOrientedAndBiased : Prop :=
  ∀ s : State, s.valid = true → 3 ≤ s.hdr.w → 3 ≤ s.hdr.rows →
    ∃ t, exec .emboss s = .next t ∧ t.err = .ok ∧ t.busy = false ∧ s.onlyPixels t ∧
      ∀ y x c, s.hdr.isInterior y x → c < s.hdr.bppb →
        t.px y x c = clamp8 (-2 * s.px (y - 1) (x - 1) c - s.px (y - 1) x c - s.px y (x - 1) c + s.px y x c
          + s.px y (x + 1) c + s.px (y + 1) x c + 2 * s.px (y + 1) (x + 1) c + 128)

/-- R220, R221, R228: SHARPEN is 5 times the centre minus its four edge-adjacent neighbours, clamped. -/
def Obligations.SharpenSubtractsTheEdgeNeighbours : Prop :=
  ∀ s : State, s.valid = true → 3 ≤ s.hdr.w → 3 ≤ s.hdr.rows →
    ∃ t, exec .sharpen s = .next t ∧ t.err = .ok ∧ t.busy = false ∧ s.onlyPixels t ∧
      ∀ y x c, s.hdr.isInterior y x → c < s.hdr.bppb →
        t.px y x c = clamp8 (5 * s.px y x c
          - (s.px (y - 1) x c + s.px (y + 1) x c + s.px y (x - 1) c + s.px y (x + 1) c))

/-- R223, R230 (a), (e): a filter changes nothing but pixels, keeps every byte of a border pixel and every byte of PIX at
NBYTES and above. -/
def Obligations.FiltersKeepTheBorder : Prop :=
  ∀ (i : Instr) (s t : State), i ∈ [.blur, .gauss, .outline, .emboss, .sharpen] → exec i s = .next t →
    s.onlyPixels t ∧
    (∀ y x c, y < s.hdr.rows → x < s.hdr.w → c < s.hdr.bppb → ¬s.hdr.isInterior y x →
      t.readByte .pix (s.hdr.pixIndex y x c) = s.readByte .pix (s.hdr.pixIndex y x c)) ∧
    (∀ k, s.hdr.nbytes ≤ k → t.readByte .pix k = s.readByte .pix k)

/-- R230 (d): a flat image of value v is left as it is by BLUR, GAUSS and SHARPEN; OUTLINE sets its interior to 0 and
EMBOSS to clamp8(v + 128). -/
def Obligations.FiltersOnFlatImages : Prop :=
  ∀ (s : State) (v : Nat), s.valid = true → 3 ≤ s.hdr.w → 3 ≤ s.hdr.rows →
    (∀ k, k < s.hdr.nbytes → (s.readByte .pix k).toNat = v) →
    (∀ i, i ∈ [Instr.blur, .gauss, .sharpen] →
      ∃ t, exec i s = .next t ∧ t.err = .ok ∧ ∀ k, t.readByte .pix k = s.readByte .pix k) ∧
    (∃ t, exec .outline s = .next t ∧ t.err = .ok ∧
      ∀ y x c, s.hdr.isInterior y x → c < s.hdr.bppb → t.px y x c = 0) ∧
    (∃ t, exec .emboss s = .next t ∧ t.err = .ok ∧
      ∀ y x c, s.hdr.isInterior y x → c < s.hdr.bppb → t.px y x c = min (v + 128) 255)

/-- R230 (c), R223, R275: an output byte is a function of the nine bytes of the same channel around it as they were
before the command; nothing else of the image, other channels included, influences it. -/
def Obligations.FilterOutputsDependOnNineBytes : Prop :=
  ∀ (i : Instr) (s s' t t' : State) (y x c : Nat), i ∈ [.blur, .gauss, .outline, .emboss, .sharpen] →
    s.valid = true → s'.valid = true → s'.hdr = s.hdr → s.hdr.isInterior y x → c < s.hdr.bppb →
    (∀ dy dx, dy < 3 → dx < 3 → s'.px (y + dy - 1) (x + dx - 1) c = s.px (y + dy - 1) (x + dx - 1) c) →
    exec i s = .next t → exec i s' = .next t' → t'.px y x c = t.px y x c

/-! ### EQUALIZE -/

/-- R251, R252, R253, R262: on depth 8 HIST counts the index bytes, CDF the bytes up to each level, and LUT is
(510·CDF + TOTAL) div (2·TOTAL). -/
def Obligations.EqualizeTablesOfDepth8 : Prop :=
  ∀ s : State, s.Inv → s.valid = true → s.hdr.depth = 8 →
    let total := s.hdr.npix
    let count (p : Nat → Bool) : Nat := ((List.range total).filter (fun i => p (s.readByte .pix i).toNat)).length
    ∃ t, exec .equalize s = .next t ∧ t.err = .ok ∧ t.busy = false ∧
      ∀ v, v < 256 →
        (t.readWord .hist v).toNat = count (fun b => b == v) ∧
        (t.readWord .cdf v).toNat = count (fun b => b ≤ v) ∧
        (t.readByte .lut v).toNat = (510 * count (fun b => b ≤ v) + total) / (2 * total)

/-- R254: on depth 8 every byte is replaced by its LUT entry, the table being that of the image before the command; the
largest level present maps to 255, so a flat image becomes 255. -/
def Obligations.EqualizeRemapsDepth8 : Prop :=
  ∀ s : State, s.Inv → s.valid = true → s.hdr.depth = 8 →
    ∃ t, exec .equalize s = .next t ∧ t.err = .ok ∧ t.busy = false ∧
      (∀ i, i < s.hdr.npix → t.readByte .pix i = t.readByte .lut (s.readByte .pix i).toNat) ∧
      (∀ i, i < s.hdr.npix → (∀ j, j < s.hdr.npix → (s.readByte .pix j).toNat ≤ (s.readByte .pix i).toNat) →
        t.readByte .pix i = 255)

/-- R255, R256, R257, R258, R262: on depth 24 HIST counts the rounded luminance, CDF accumulates it, and LUT is the
identity if every pixel has the least level, else 0 below that level and the scaled count above it. -/
def Obligations.EqualizeTablesOfDepth24 : Prop :=
  ∀ s : State, s.Inv → s.valid = true → s.hdr.depth = 24 →
    let total := s.hdr.npix
    let px (k : Nat) : Nat := (s.readByte .pix k).toNat
    let idx (p : Nat) : Nat := (299 * px (3 * p) + 587 * px (3 * p + 1) + 114 * px (3 * p + 2) + 500) / 1000
    let count (q : Nat → Bool) : Nat := ((List.range total).filter (fun p => q (idx p))).length
    ∃ t, exec .equalize s = .next t ∧ t.err = .ok ∧ t.busy = false ∧
      (∀ v, v < 256 → (t.readWord .hist v).toNat = count (fun b => b == v) ∧
        (t.readWord .cdf v).toNat = count (fun b => b ≤ v)) ∧
      ∀ m, m < 256 → count (fun b => b == m) > 0 → (∀ v, v < m → count (fun b => b == v) = 0) →
        let cmin := count (fun b => b ≤ m)
        ∀ i, i < 256 → (t.readByte .lut i).toNat =
          if total ≤ cmin then i
          else if count (fun b => b ≤ i) < cmin then 0
          else (510 * (count (fun b => b ≤ i) - cmin) + (total - cmin)) / (2 * (total - cmin))

/-- R255, R259: on depth 24 each channel is the inverse transform of the remapped luminance with the pixel's old
chrominance, rounded and clamped. -/
def Obligations.EqualizeRecoloursDepth24 : Prop :=
  ∀ s : State, s.Inv → s.valid = true → s.hdr.depth = 24 →
    ∃ t, exec .equalize s = .next t ∧ t.err = .ok ∧ t.busy = false ∧
      ∀ p, p < s.hdr.npix →
        let r : Int := (s.readByte .pix (3 * p)).toNat
        let g : Int := (s.readByte .pix (3 * p + 1)).toNat
        let b : Int := (s.readByte .pix (3 * p + 2)).toNat
        let u := -14713 * r - 28886 * g + 43600 * b
        let v := 61500 * r - 51499 * g - 10001 * b
        let y : Int := (t.readByte .lut ((299 * r + 587 * g + 114 * b + 500) / 1000).toNat).toNat
        ((t.readByte .pix (3 * p)).toNat : Int) = clamp8 (rnd (y * 10 ^ 10 + 113983 * v) (10 ^ 10)) ∧
        ((t.readByte .pix (3 * p + 1)).toNat : Int) =
          clamp8 (rnd (y * 10 ^ 10 - 39465 * u - 58060 * v) (10 ^ 10)) ∧
        ((t.readByte .pix (3 * p + 2)).toNat : Int) = clamp8 (rnd (y * 10 ^ 10 + 203211 * u) (10 ^ 10))

/-- R263 (a), R258: a depth-24 image all of whose pixels are the same gray is left as it is by EQUALIZE. -/
def Obligations.EqualizeKeepsAllGrayImages : Prop :=
  ∀ (s : State) (v : Byte), s.Inv → s.valid = true → s.hdr.depth = 24 →
    (∀ k, k < s.hdr.nbytes → s.readByte .pix k = v) →
    ∃ t, exec .equalize s = .next t ∧ t.err = .ok ∧ (∀ k, t.readByte .pix k = s.readByte .pix k) ∧
      ∀ i, i < 256 → (t.readByte .lut i).toNat = i

/-- R252, R251: after EQUALIZE on either depth the bins sum to TOTAL, CDF is non-decreasing, accumulates HIST, and ends at
TOTAL. -/
def Obligations.CdfAccumulatesTheHistogram : Prop :=
  ∀ s : State, s.Inv → s.valid = true →
    ∃ t, exec .equalize s = .next t ∧ t.err = .ok ∧
      ((List.range 256).map (fun v => (t.readWord .hist v).toNat)).sum = s.hdr.npix ∧
      (t.readWord .cdf 0).toNat = (t.readWord .hist 0).toNat ∧
      (∀ v, v < 255 → (t.readWord .cdf (v + 1)).toNat = (t.readWord .cdf v).toNat + (t.readWord .hist (v + 1)).toNat) ∧
      (t.readWord .cdf 255).toNat = s.hdr.npix

/-- R250, R263 (g), R28: EQUALIZE completes on every image and changes nothing but PIX below NBYTES, HIST, CDF, LUT, ERR and
BUSY. -/
def Obligations.EqualizeChangesPixelsAndTablesOnly : Prop :=
  ∀ s : State, s.Inv → s.valid = true →
    ∃ t, exec .equalize s = .next t ∧ t.err = .ok ∧ t.busy = false ∧
      t = { s with pix := t.pix, hist := t.hist, cdf := t.cdf, lut := t.lut, err := t.err, busy := t.busy } ∧
      ∀ k, s.hdr.nbytes ≤ k → t.readByte .pix k = s.readByte .pix k

/-! ### The host port -/

/-- R24, R290: STATUS read at 0x0C has BUSY in bit 0, VALID in bit 1, the code of the error kind in bits [7:4], and
zeros in every other bit. -/
def Obligations.StatusWordLayout : Prop :=
  (∀ s : State,
    let w := (s.regRead 0x0C).toNat
    w % 2 = s.busy.toNat ∧ w / 2 % 2 = s.valid.toNat ∧ w / 4 % 4 = 0 ∧ w / 16 % 16 = s.err.code ∧ w / 256 = 0) ∧
  [ErrKind.ok, .format, .unsupportedFormat, .truncatedData, .allocation, .io, .size, .illegalCommand].map ErrKind.code
    = [0, 1, 2, 3, 4, 5, 6, 7]

/-- R26: while the slot is valid the metadata registers give the width, row count and depth exactly, and the stride and
data size modulo 2^32. -/
def Obligations.MetadataRegistersGiveTheGeometry : Prop :=
  ∀ s : State, s.Inv → s.valid = true →
    (s.regRead 0x80).toNat = s.hdr.w ∧ (s.regRead 0x84).toNat = s.hdr.rows ∧ (s.regRead 0x88).toNat = s.hdr.depth ∧
      (s.regRead 0x8C).toNat = s.hdr.stride % 2 ^ 32 ∧
      (s.regRead 0x90).toNat = s.hdr.stride * s.hdr.rows % 2 ^ 32

/-- R61, R62: a write to any register but CMD, ARG0, ARG1 and FLEN does nothing, those three data registers store the
value, and an address that is not listed reads 0. -/
def Obligations.RegisterWritesReachOnlyWritableRegisters : Prop :=
  ∀ (s : State) (a : Nat) (v : Word) (rest : List Event), s.busy = false → s.inbox = .host (.regWrite a v) :: rest →
    (a ∉ [0x00, 0x04, 0x08, 0x10] → step s = .next { s with inbox := rest }) ∧
    (a = 0x04 → step s = .next { s with arg0 := v, inbox := rest }) ∧
    (a = 0x08 → step s = .next { s with arg1 := v, inbox := rest }) ∧
    (a = 0x10 → step s = .next { s with flen := v, inbox := rest }) ∧
    (a ∉ [0x00, 0x04, 0x08, 0x0C, 0x10, 0x40, 0x44, 0x48, 0x4C, 0x50, 0x54, 0x58, 0x5C, 0x60, 0x64, 0x68, 0x6C, 0x70,
      0x74, 0x78, 0x7C, 0x80, 0x84, 0x88, 0x8C, 0x90] → s.regRead a = 0)

/-- R62: a host read answers the register, byte or entry it names and changes nothing else, so that a second read answers
the same. R61, R22, R23, R25, R30: which register is read at 0x00, 0x04, 0x08, 0x10 and 0x40 to 0x7C, the 16-bit fields
zero-extended (STATUS is `StatusWordLayout`, 0x80 to 0x90 `MetadataRegistersGiveTheGeometry`, every other address
`RegisterWritesReachOnlyWritableRegisters`). The reply field is the model's (log entry 7). -/
def Obligations.HostReadsHaveNoSideEffect : Prop :=
  (∀ s : State,
    (s.regRead 0x00 = s.cmd ∧ s.regRead 0x04 = s.arg0 ∧ s.regRead 0x08 = s.arg1 ∧ s.regRead 0x10 = s.flen) ∧
    (s.regRead 0x40).toNat = s.hdr.sig.toNat ∧ s.regRead 0x44 = s.hdr.fsize ∧
    (s.regRead 0x48).toNat = s.hdr.res1.toNat ∧ (s.regRead 0x4C).toNat = s.hdr.res2.toNat ∧
    s.regRead 0x50 = s.hdr.doff ∧ s.regRead 0x54 = s.hdr.ihsize ∧ s.regRead 0x58 = s.hdr.width ∧
    s.regRead 0x5C = s.hdr.height ∧ (s.regRead 0x60).toNat = s.hdr.planes.toNat ∧
    (s.regRead 0x64).toNat = s.hdr.bpp.toNat ∧ s.regRead 0x68 = s.hdr.compr ∧ s.regRead 0x6C = s.hdr.isize ∧
    s.regRead 0x70 = s.hdr.xres ∧ s.regRead 0x74 = s.hdr.yres ∧ s.regRead 0x78 = s.hdr.clrused ∧
    s.regRead 0x7C = s.hdr.clrimp) ∧
  ∀ (s : State) (rest : List Event), s.busy = false →
    (∀ a, s.inbox = .host (.regRead a) :: rest →
      step s = .next { s with inbox := rest, reply := .word (s.regRead a) }) ∧
    (∀ S i, s.inbox = .host (.byteRead S i) :: rest → i < s.byteExtent S →
      step s = .next { s with inbox := rest, reply := .byte (s.readByte S i) }) ∧
    (∀ S i, s.inbox = .host (.wordRead S i) :: rest → i < 256 →
      step s = .next { s with inbox := rest, reply := .word (s.readWord S i) })

/-- R62, R60: a ByteWrite to FMEM, PIX or PAL sets that byte and leaves every other byte and all else; a write to LUT,
HIST or CDF does nothing. -/
def Obligations.HostByteWritesSetOneByte : Prop :=
  (∀ (s : State) (S : WordSpace) (i : Nat) (v : Word) (rest : List Event), s.busy = false → i < 256 →
    s.inbox = .host (.wordWrite S i v) :: rest → step s = .next { s with inbox := rest }) ∧
  ∀ (s : State) (S : ByteSpace) (i : Nat) (v : Byte) (rest : List Event), s.busy = false → i < s.byteExtent S →
    s.inbox = .host (.byteWrite S i v) :: rest →
    ∃ t, step s = .next t ∧
      t = { s with fmem := t.fmem, pix := t.pix, pal := t.pal, inbox := rest } ∧
      (S = .lut → t = { s with inbox := rest }) ∧
      (S ≠ .lut → t.readByte S i = v) ∧
      (∀ S' j, ¬(S' = S ∧ j = i) → t.readByte S' j = s.readByte S' j)

/-- R74: while BUSY = 1 only a STATUS read is a defined transaction, it answers BUSY = 1, and every other is refused. The
reply field and the refusal's name are the model's (log entries 7 and 8). -/
def Obligations.HostIsRefusedWhileBusy : Prop :=
  ∀ (s : State) (t : Txn) (rest : List Event), s.busy = true → s.inbox = .host t :: rest →
    (t = .regRead 0x0C → step s = .next { s with inbox := rest, reply := .word s.status } ∧ s.status.toNat % 2 = 1) ∧
    (t ≠ .regRead 0x0C → step s = .refused .hostWhileBusy)

/-- R67, R60: an index outside a space's extent is refused, for reads and writes alike. The refusal's name is the model's
(log entry 8). -/
def Obligations.IndicesOutsideASpaceAreRefused : Prop :=
  ∀ (s : State) (i : Nat) (rest : List Event), s.busy = false →
    (∀ S n, (S = .fmem ∧ n = s.caps.fileCap) ∨ (S = .pix ∧ n = s.caps.pixCap) ∨ (S = .pal ∧ n = 1024) ∨
        (S = .lut ∧ n = 256) → n ≤ i →
      (s.inbox = .host (.byteRead S i) :: rest → step s = .refused .indexOutOfExtent) ∧
      (∀ v, s.inbox = .host (.byteWrite S i v) :: rest → step s = .refused .indexOutOfExtent)) ∧
    (∀ S, 256 ≤ i →
      (s.inbox = .host (.wordRead S i) :: rest → step s = .refused .indexOutOfExtent) ∧
      (∀ v, s.inbox = .host (.wordWrite S i v) :: rest → step s = .refused .indexOutOfExtent))

/-- R346, R67, R74: no step faults, and a step is refused only for a host transaction that breaks R67 or R74. -/
def Obligations.OnlyUndefinedTransactionsStopTheMachine : Prop :=
  (∀ (s : State) (r : Fault), step s ≠ .fault r) ∧ (∀ s : State, s.hostKeepsRules → ∃ t, step s = .next t)

/-! ### Reset, arithmetic and the invariant -/

/-- R330, R36, R331: the reset event, whenever it comes, leaves every register 0, the block idle without an image or an
error, a running command abandoned, and every byte and entry of every memory a free value of a fresh draw; a command that
needs an image fails afterwards. The draw counter and what stays of the host's side are the model's (log entries 2, 4). -/
def Obligations.ResetClearsTheRegistersAndTheSlot : Prop :=
  ∀ (s : State) (rest : List Event), s.inbox = .rst :: rest →
    ∃ t, step s = .next t ∧ t.cmd = 0 ∧ t.arg0 = 0 ∧ t.arg1 = 0 ∧ t.flen = 0 ∧ t.status = 0 ∧ t.busy = false ∧
      t.valid = false ∧ t.err = .ok ∧ t.hdr = Header.zero ∧ (∀ a, t.regRead a = 0) ∧
      (∀ S i, t.readByte S i = Config.powerOnByte S (s.draw + 1) i) ∧
      (∀ S i, t.readWord S i = Config.powerOnWord S (s.draw + 1) i) ∧ t.caps = s.caps ∧ t.inbox = rest ∧
      (∀ i, i ∈ [Instr.encode, .neg, .bright, .thresh, .gray, .blur, .gauss, .outline, .emboss, .sharpen, .equalize] →
        exec i t = .next { t with err := .illegalCommand, busy := false })

/-- R9: rnd(n, d) is an integer nearest to n/d, and at a tie the one farther from zero. -/
def Obligations.RoundingIsNearestTiesAwayFromZero : Prop :=
  ∀ n d : Int, 0 < d →
    2 * (rnd n d * d - n).natAbs ≤ d.natAbs ∧
      (2 * (rnd n d * d - n).natAbs = d.natAbs → n.natAbs ≤ (rnd n d * d).natAbs)

/-- R36, R24, R7: the machine after reset satisfies the invariant, with any legal capacities, any draw and any inbox; the
capacities and the draw of `State.reset` itself are the model's choice (log entries 1, 2). -/
def Obligations.ResetSatisfiesTheInvariant : Prop :=
  State.reset.Inv ∧
    ∀ (caps : Caps) (draw : Nat) (inbox : List Event), capsOk caps → (State.resetWith caps draw inbox).Inv

/-- R24 ("Invariants when VALID = 1"), R60, R67: every step keeps the invariant: legal capacities, the image invariant of
the header registers while VALID = 1, every memory in canonical form inside its extent. -/
def Obligations.EveryStepKeepsTheInvariant : Prop :=
  ∀ s t : State, s.Inv → step s = .next t → t.Inv
end

