-- ==== Sys2Proof/Laws/Decode.lean ====
section
/-! SUPPORT. The fields of the command word as numbers, and the decoder said by them. -/

namespace Sys2Proof

/-- OP is the word's low byte (R90). -/
theorem opField_eq (w : Word) : opField w = w.toNat % 256 := by
  simp [opField, bits, BitVec.extractLsb_toNat]

/-- IMM8 is the word's second byte (R90). -/
theorem immField_eq (w : Word) : immField w = w.toNat / 256 % 256 := by
  simp [immField, bits, BitVec.extractLsb_toNat, Nat.shiftRight_eq_div_pow]

/-- ZERO is the word's upper half (R90). -/
theorem zeroField_eq (w : Word) : zeroField w = w.toNat / 65536 := by
  have := w.isLt
  simp only [zeroField, bits, BitVec.extractLsb_toNat, Nat.shiftRight_eq_div_pow]
  norm_num; omega

/-- A word is the number its fields spell. -/
theorem toNat_eq_fields (w : Word) : w.toNat = zeroField w * 65536 + immField w * 256 + opField w := by
  rw [opField_eq, immField_eq, zeroField_eq]; omega

end Sys2Proof
end

