-- ==== Sys2Proof/Laws/Operands.lean ====
section
/-! SUPPORT. The small lemmas of the operand forms: signed reads, bytes, clamping and rounding, little-endian fields, and
the index P(y, x, c) with its inverse. -/

namespace Sys2Proof.Machine

/-! ### Bytes, clamping, rounding -/

@[simp] theorem toByte_natCast (n : Nat) : toByte (n : Int) = BitVec.ofNat 8 n := by
  simp [toByte]

/-- A value within 0..255 is stored unchanged. -/
theorem toByte_toNat {v : Int} (h0 : 0 ≤ v) (h1 : v ≤ 255) : ((toByte v).toNat : Int) = v := by
  obtain ⟨n, rfl⟩ := Int.eq_ofNat_of_zero_le h0
  rw [toByte_natCast, BitVec.toNat_ofNat, Nat.mod_eq_of_lt (by omega)]

@[simp] theorem toByte_toNat_self (b : Byte) : toByte (b.toNat : Int) = b := by
  simp

theorem clamp8_mem (v : Int) : 0 ≤ clamp8 v ∧ clamp8 v ≤ 255 := by
  unfold clamp8 clamp; split <;> [omega; split <;> omega]

theorem clamp8_of_mem {v : Int} (h0 : 0 ≤ v) (h1 : v ≤ 255) : clamp8 v = v := by
  unfold clamp8 clamp; rw [if_neg (by omega), if_neg (by omega)]

@[simp] theorem toByte_clamp8_toNat (v : Int) : ((toByte (clamp8 v)).toNat : Int) = clamp8 v :=
  toByte_toNat (clamp8_mem v).1 (clamp8_mem v).2

@[simp] theorem State.pixVal_nonneg (s : State) (i : Nat) : 0 ≤ s.pixVal i := Int.natCast_nonneg _

theorem State.pixVal_le (s : State) (i : Nat) : s.pixVal i ≤ 255 := by
  have := (s.readByte .pix i).isLt
  unfold State.pixVal; omega

/-- `rnd` at a non-negative numerator. -/
theorem rnd_of_nonneg {n : Int} (h : 0 ≤ n) (d : Int) : rnd n d = (2 * n + d) / (2 * d) := if_pos h

theorem rnd_one (n : Int) : rnd n 1 = n := by
  unfold rnd; split <;> omega

/-- An exact multiple is not moved by rounding. -/
theorem rnd_mul_self (n : Int) {d : Int} (hd : 0 < d) : rnd (n * d) d = n := by
  unfold rnd
  split
  · rw [show 2 * (n * d) + d = d + n * (2 * d) by ring, Int.add_mul_ediv_right _ _ (by omega),
      Int.ediv_eq_zero_of_lt (by omega) (by omega)]; omega
  · rw [show 2 * -(n * d) + d = d + (-n) * (2 * d) by ring, Int.add_mul_ediv_right _ _ (by omega),
      Int.ediv_eq_zero_of_lt (by omega) (by omega)]; omega

/-! ### Little-endian fields -/

theorem u16le_lt (m : Nat → Byte) (a : Nat) : u16le m a < 2 ^ 16 := by
  have h0 := (m a).isLt
  have h1 := (m (a + 1)).isLt
  unfold u16le; omega

theorem u32le_lt (m : Nat → Byte) (a : Nat) : u32le m a < 2 ^ 32 := by
  have h0 := (m a).isLt
  have h1 := (m (a + 1)).isLt
  have h2 := (m (a + 2)).isLt
  have h3 := (m (a + 3)).isLt
  unfold u32le; omega

@[simp] theorem bytes16le_length (v : Nat) : (bytes16le v).length = 2 := rfl

@[simp] theorem bytes32le_length (v : Nat) : (bytes32le v).length = 4 := rfl

/-- A 16-bit field written little-endian is read back. -/
theorem u16le_of_bytes {m : Nat → Byte} {a v : Nat} (h0 : m a = BitVec.ofNat 8 v)
    (h1 : m (a + 1) = BitVec.ofNat 8 (v / 256)) : u16le m a = v % 2 ^ 16 := by
  rw [u16le, h0, h1]; simp only [BitVec.toNat_ofNat]; omega

/-- A 32-bit field written little-endian is read back. -/
theorem u32le_of_bytes {m : Nat → Byte} {a v : Nat} (h0 : m a = BitVec.ofNat 8 v)
    (h1 : m (a + 1) = BitVec.ofNat 8 (v / 2 ^ 8)) (h2 : m (a + 2) = BitVec.ofNat 8 (v / 2 ^ 16))
    (h3 : m (a + 3) = BitVec.ofNat 8 (v / 2 ^ 24)) : u32le m a = v % 2 ^ 32 := by
  rw [u32le, h0, h1, h2, h3]; simp only [BitVec.toNat_ofNat]; omega

@[simp] theorem Header.emitted_length (h : Header) : h.emitted.length = 54 := by simp [Header.emitted]

/-! ### Signed reads -/

theorem s32_toNat_natAbs_of_pos {v : Word} (h : 0 < s32 v) : ((s32 v).toNat : Int) = v.toNat := by
  have := v.isLt
  unfold s32 at *; split at h <;> rename_i hv
  · rw [if_pos hv]; omega
  · omega

/-- The absolute value of a signed read is at most 2^31 (R135). -/
theorem s32_natAbs_le (v : Word) : (s32 v).natAbs ≤ 2 ^ 31 := by
  have := v.isLt
  unfold s32; split <;> omega

theorem s32_ofNat {n : Nat} (h : n < 2 ^ 31) : s32 (BitVec.ofNat 32 n) = n := by
  unfold s32; rw [BitVec.toNat_ofNat, Nat.mod_eq_of_lt (by omega), if_pos h]

/-! ### The geometry and the index P -/

@[simp] theorem strideOf_mod_four (w bppb : Nat) : strideOf w bppb % 4 = 0 := by
  unfold strideOf; omega

theorem le_strideOf (w bppb : Nat) : w * bppb ≤ strideOf w bppb := by
  unfold strideOf; omega

theorem strideOf_lt (w bppb : Nat) : strideOf w bppb < w * bppb + 4 := by
  unfold strideOf; omega

theorem Header.chanOf_pixIndex (h : Header) {y x c : Nat} (hc : c < h.bppb) : h.chanOf (h.pixIndex y x c) = c := by
  rw [Header.chanOf, Header.pixIndex, Nat.mul_add_mod_self_right, Nat.mod_eq_of_lt hc]

theorem Header.pixIndex_div (h : Header) {y x c : Nat} (hc : c < h.bppb) :
    h.pixIndex y x c / h.bppb = y * h.w + x := by
  rw [Header.pixIndex, Nat.add_comm, Nat.add_mul_div_right _ _ (by omega), Nat.div_eq_of_lt hc]; omega

theorem Header.rowOf_pixIndex (h : Header) {y x c : Nat} (hx : x < h.w) (hc : c < h.bppb) :
    h.rowOf (h.pixIndex y x c) = y := by
  rw [Header.rowOf, h.pixIndex_div hc, Nat.add_comm, Nat.add_mul_div_right _ _ (by omega), Nat.div_eq_of_lt hx]; omega

theorem Header.colOf_pixIndex (h : Header) {y x c : Nat} (hx : x < h.w) (hc : c < h.bppb) :
    h.colOf (h.pixIndex y x c) = x := by
  rw [Header.colOf, h.pixIndex_div hc, Nat.mul_add_mod_self_right, Nat.mod_eq_of_lt hx]

/-- P of a pixel of the image is below NBYTES (R12, R67). -/
theorem Header.pixIndex_lt (h : Header) {y x c : Nat} (hy : y < h.rows) (hx : x < h.w) (hc : c < h.bppb) :
    h.pixIndex y x c < h.nbytes := by
  have h1 : y * h.w + x + 1 ≤ h.rows * h.w := by
    calc y * h.w + x + 1 ≤ y * h.w + h.w := by omega
      _ = (y + 1) * h.w := by ring
      _ ≤ h.rows * h.w := Nat.mul_le_mul_right _ hy
  calc h.pixIndex y x c < (y * h.w + x) * h.bppb + h.bppb := by unfold Header.pixIndex; omega
    _ = (y * h.w + x + 1) * h.bppb := by ring
    _ ≤ h.rows * h.w * h.bppb := Nat.mul_le_mul_right _ h1
    _ = h.nbytes := by unfold Header.nbytes Header.npix; ring

theorem Header.nbytes_pos (h : Header) {i : Nat} (hi : i < h.nbytes) : 0 < h.w ∧ 0 < h.rows ∧ 0 < h.bppb := by
  have : 0 < h.w * h.rows * h.bppb := Nat.lt_of_le_of_lt (Nat.zero_le i) hi
  exact ⟨Nat.pos_of_ne_zero (by rintro h0; simp [h0] at this), Nat.pos_of_ne_zero (by rintro h0; simp [h0] at this),
    Nat.pos_of_ne_zero (by rintro h0; simp [h0] at this)⟩

/-- Every index below NBYTES is P of its own row, column and channel. -/
theorem Header.pixIndex_of_lt (h : Header) {i : Nat} (hi : i < h.nbytes) :
    h.rowOf i < h.rows ∧ h.colOf i < h.w ∧ h.chanOf i < h.bppb ∧ h.pixIndex (h.rowOf i) (h.colOf i) (h.chanOf i) = i := by
  obtain ⟨hw, hr, hb⟩ := h.nbytes_pos hi
  refine ⟨?_, Nat.mod_lt _ hw, Nat.mod_lt _ hb, ?_⟩
  · rw [Header.rowOf, Nat.div_div_eq_div_mul, Nat.div_lt_iff_lt_mul (Nat.mul_pos hb hw)]
    calc i < h.nbytes := hi
      _ = h.rows * (h.bppb * h.w) := by unfold Header.nbytes Header.npix; ring
  · unfold Header.pixIndex Header.rowOf Header.colOf Header.chanOf
    rw [Nat.mul_comm (i / h.bppb / h.w), Nat.div_add_mod, Nat.mul_comm, Nat.div_add_mod]

/-- DEPTH of the two legal depths gives 1 or 3 bytes per pixel (R12). -/
theorem Header.bppb_of_depth8 {h : Header} (hd : h.depth = 8) : h.bppb = 1 := by rw [Header.bppb, hd]

theorem Header.bppb_of_depth24 {h : Header} (hd : h.depth = 24) : h.bppb = 3 := by rw [Header.bppb, hd]

end Sys2Proof.Machine
end

