-- ==== Sys2Proof/Laws/Memory.lean ====
section
/-! SUPPORT. The laws of the memories: a read after a fill, a fill leaves every other index alone, and every operation
keeps the canonical form and the extent. -/

namespace Sys2Proof.Machine

variable {w : Nat}

@[simp] theorem Memory.read_nil (i : Nat) : Memory.read ([] : Memory w) i = none := rfl

@[simp] theorem Memory.read_cons (j : Nat) (v : BitVec w) (m : Memory w) (i : Nat) :
    Memory.read ((j, v) :: m) i = if j = i then some v else Memory.read m i := rfl

theorem Memory.read_append (m₁ m₂ : Memory w) (i : Nat) :
    Memory.read (m₁ ++ m₂) i = (Memory.read m₁ i).or (Memory.read m₂ i) := by
  induction m₁ with
  | nil => rfl
  | cons c m₁ ih => by_cases h : c.1 = i <;> simp_all [Memory.read]

theorem Memory.read_filter_of_pos (p : Nat → Bool) (m : Memory w) (i : Nat) (h : p i = true) :
    Memory.read (m.filter (fun c => p c.1)) i = Memory.read m i := by
  induction m with
  | nil => rfl
  | cons c m ih =>
    by_cases hc : c.1 = i
    · subst hc; simp [List.filter, h, Memory.read]
    · cases hp : p c.1 <;> simp [List.filter, hp, hc, Memory.read, ih]

theorem Memory.read_filter_of_neg (p : Nat → Bool) (m : Memory w) (i : Nat) (h : p i = false) :
    Memory.read (m.filter (fun c => p c.1)) i = none := by
  induction m with
  | nil => rfl
  | cons c m ih =>
    cases hp : p c.1
    · simpa [List.filter, hp] using ih
    · have hc : c.1 ≠ i := by rintro rfl; simp_all
      simpa [List.filter, hp, hc, Memory.read] using ih

theorem Memory.read_map_range (base n : Nat) (f : Nat → BitVec w) (i : Nat) :
    Memory.read ((List.range n).map (fun k => (base + k, f k))) i
      = if base ≤ i ∧ i < base + n then some (f (i - base)) else none := by
  induction n with
  | zero => rw [if_neg (by omega)]; rfl
  | succ n ih =>
    rw [List.range_succ, List.map_append, Memory.read_append, ih]
    by_cases h : base + n = i
    · subst h
      simp
    · by_cases h' : base ≤ i ∧ i < base + n
      · rw [if_pos h', if_pos (by omega)]; rfl
      · rw [if_neg h', if_neg (by omega)]; simp [Memory.read, h]

/-- A fill is read back inside its range. -/
theorem Memory.read_fill_of_mem (m : Memory w) (base n : Nat) (f : Nat → BitVec w) (i : Nat)
    (h : base ≤ i ∧ i < base + n) : (m.fill base n f).read i = some (f (i - base)) := by
  rw [Memory.fill, Memory.read_append, Memory.read_append,
    Memory.read_filter_of_neg (fun a => decide (a < base)) m i (by simp; omega), Memory.read_map_range, if_pos h]
  rfl

/-- A fill leaves every index outside its range alone. -/
theorem Memory.read_fill_of_not_mem (m : Memory w) (base n : Nat) (f : Nat → BitVec w) (i : Nat)
    (h : ¬(base ≤ i ∧ i < base + n)) : (m.fill base n f).read i = m.read i := by
  rw [Memory.fill, Memory.read_append, Memory.read_append, Memory.read_map_range, if_neg h]
  by_cases hi : i < base
  · rw [Memory.read_filter_of_pos (fun a => decide (a < base)) m i (by simp [hi]),
      Memory.read_filter_of_neg (fun a => decide (base + n ≤ a)) m i (by simp; omega)]
    simp
  · rw [Memory.read_filter_of_neg (fun a => decide (a < base)) m i (by simp; omega),
      Memory.read_filter_of_pos (fun a => decide (base + n ≤ a)) m i (by simp; omega)]
    simp

/-- A fill from index 0 is read back below its length. -/
theorem Memory.read_fill_zero_of_lt (m : Memory w) (n : Nat) (f : Nat → BitVec w) (i : Nat) (h : i < n) :
    (m.fill 0 n f).read i = some (f i) := by
  simpa using Memory.read_fill_of_mem m 0 n f i (by omega)

/-- A fill from index 0 leaves the indices from its length on alone. -/
theorem Memory.read_fill_zero_of_le (m : Memory w) (n : Nat) (f : Nat → BitVec w) (i : Nat) (h : n ≤ i) :
    (m.fill 0 n f).read i = m.read i := Memory.read_fill_of_not_mem m 0 n f i (by omega)

@[simp] theorem Memory.read_write_self (m : Memory w) (i : Nat) (v : BitVec w) : (m.write i v).read i = some v := by
  rw [Memory.write, Memory.read_fill_of_mem m i 1 _ i (by omega)]

theorem Memory.read_write_of_ne (m : Memory w) (i j : Nat) (v : BitVec w) (h : j ≠ i) :
    (m.write i v).read j = m.read j := Memory.read_fill_of_not_mem m i 1 _ j (by omega)

/-- A fill keeps the canonical form. -/
theorem Memory.fill_wf (m : Memory w) (base n : Nat) (f : Nat → BitVec w) (h : m.wf) : (m.fill base n f).wf := by
  have mid : ((List.range n).map (fun k => (base + k, f k))).Pairwise (fun a b : Nat × BitVec w => a.1 < b.1) := by
    rw [List.pairwise_map]
    exact (List.pairwise_lt_range (n := n)).imp (fun hab => by simpa using hab)
  simp only [Memory.wf, Memory.fill]
  rw [List.pairwise_append, List.pairwise_append]
  refine ⟨⟨h.filter _, mid, ?_⟩, h.filter _, ?_⟩
  · intro a ha b hb
    simp only [List.mem_filter, decide_eq_true_eq, List.mem_map] at ha hb
    obtain ⟨k, -, rfl⟩ := hb
    simp only; omega
  · intro a ha b hb
    simp only [List.mem_append, List.mem_filter, decide_eq_true_eq, List.mem_map, List.mem_range] at ha hb
    rcases ha with ⟨-, ha⟩ | ⟨k, hk, rfl⟩
    · omega
    · simp only; omega

/-- A fill inside the extent keeps the memory inside the extent. -/
theorem Memory.fill_within (m : Memory w) (base n extent : Nat) (f : Nat → BitVec w) (h : m.within extent)
    (hn : n = 0 ∨ base + n ≤ extent) : (m.fill base n f).within extent := by
  intro c hc
  simp only [Memory.fill, List.mem_append, List.mem_filter, List.mem_map, List.mem_range] at hc
  rcases hc with (⟨hc, -⟩ | ⟨k, hk, rfl⟩) | ⟨hc, -⟩
  · exact h c hc
  · simp only; omega
  · exact h c hc

theorem Memory.write_wf (m : Memory w) (i : Nat) (v : BitVec w) (h : m.wf) : (m.write i v).wf :=
  Memory.fill_wf m i 1 _ h

theorem Memory.write_within (m : Memory w) (i extent : Nat) (v : BitVec w) (h : m.within extent) (hi : i < extent) :
    (m.write i v).within extent := Memory.fill_within m i 1 extent _ h (by omega)

/-- The memories of the state after reset are in canonical form. -/
theorem Memory.wf_nil : Memory.wf ([] : Memory w) := List.Pairwise.nil

/-- In canonical form a memory is determined by what it reads: equal memories are equal data. -/
theorem Memory.ext_of_wf {m₁ m₂ : Memory w} (h₁ : m₁.wf) (h₂ : m₂.wf) (h : ∀ i, m₁.read i = m₂.read i) : m₁ = m₂ := by
  induction m₁ generalizing m₂ with
  | nil =>
    cases m₂ with
    | nil => rfl
    | cons c m => simpa [Memory.read] using h c.1
  | cons c₁ m₁ ih =>
    cases m₂ with
    | nil => simpa [Memory.read] using h c₁.1
    | cons c₂ m₂ =>
      have low : ∀ (c : Nat × BitVec w) (m : Memory w), Memory.wf (c :: m) → ∀ i, i ≤ c.1 → Memory.read m i = none := by
        intro c m hw i hi
        induction m with
        | nil => rfl
        | cons d m ihm =>
          rw [Memory.wf, List.pairwise_cons, List.pairwise_cons] at hw
          have hd := hw.1 d (by simp)
          obtain ⟨j, v⟩ := d
          simp only [Memory.read_cons]
          rw [if_neg (by simp only at hd; omega)]
          exact ihm (List.pairwise_cons.2 ⟨fun x hx => hw.1 x (by simp [hx]), hw.2.2⟩)
      obtain ⟨a, v⟩ := c₁
      obtain ⟨b, u⟩ := c₂
      have ha := h a
      have hb := h b
      simp only [Memory.read_cons, if_true] at ha hb
      have hab : a = b := by
        by_contra hne
        rcases Nat.lt_or_gt_of_ne hne with hlt | hgt
        · rw [if_neg (by omega), low (b, u) m₂ h₂ a (by simp only; omega)] at ha
          simp at ha
        · rw [if_neg hne, low (a, v) m₁ h₁ b (by simp only; omega)] at hb
          simp at hb
      subst hab
      simp only [if_true, Option.some.injEq] at ha
      subst ha
      congr 1
      refine ih h₁.of_cons h₂.of_cons (fun i => ?_)
      by_cases hi : a = i
      · subst hi; rw [low _ _ h₁ a (Nat.le_refl _), low _ _ h₂ a (Nat.le_refl _)]
      · simpa [hi] using h i

end Sys2Proof.Machine
end

