-- ==== Sys2Proof/Laws/State.lean ====
section
/-! SUPPORT. One lemma per field per update of the state, each true by rfl, so that no proof unfolds a record update. -/

namespace Sys2Proof.Machine


/-! ### The fields after `done` -/

@[simp] theorem State.done_caps (s : State) : s.done.caps = s.caps := rfl
@[simp] theorem State.done_cmd (s : State) : s.done.cmd = s.cmd := rfl
@[simp] theorem State.done_arg0 (s : State) : s.done.arg0 = s.arg0 := rfl
@[simp] theorem State.done_arg1 (s : State) : s.done.arg1 = s.arg1 := rfl
@[simp] theorem State.done_busy (s : State) : s.done.busy = false := rfl
@[simp] theorem State.done_valid (s : State) : s.done.valid = s.valid := rfl
@[simp] theorem State.done_err (s : State) : s.done.err = .ok := rfl
@[simp] theorem State.done_flen (s : State) : s.done.flen = s.flen := rfl
@[simp] theorem State.done_hdr (s : State) : s.done.hdr = s.hdr := rfl
@[simp] theorem State.done_fmem (s : State) : s.done.fmem = s.fmem := rfl
@[simp] theorem State.done_pix (s : State) : s.done.pix = s.pix := rfl
@[simp] theorem State.done_pal (s : State) : s.done.pal = s.pal := rfl
@[simp] theorem State.done_lut (s : State) : s.done.lut = s.lut := rfl
@[simp] theorem State.done_hist (s : State) : s.done.hist = s.hist := rfl
@[simp] theorem State.done_cdf (s : State) : s.done.cdf = s.cdf := rfl
@[simp] theorem State.done_draw (s : State) : s.done.draw = s.draw := rfl
@[simp] theorem State.done_inbox (s : State) : s.done.inbox = s.inbox := rfl
@[simp] theorem State.done_reply (s : State) : s.done.reply = s.reply := rfl

/-! ### The fields after `fail` -/

@[simp] theorem State.fail_caps (s : State) (k : ErrKind) : (s.fail k).caps = s.caps := rfl
@[simp] theorem State.fail_cmd (s : State) (k : ErrKind) : (s.fail k).cmd = s.cmd := rfl
@[simp] theorem State.fail_arg0 (s : State) (k : ErrKind) : (s.fail k).arg0 = s.arg0 := rfl
@[simp] theorem State.fail_arg1 (s : State) (k : ErrKind) : (s.fail k).arg1 = s.arg1 := rfl
@[simp] theorem State.fail_busy (s : State) (k : ErrKind) : (s.fail k).busy = false := rfl
@[simp] theorem State.fail_valid (s : State) (k : ErrKind) : (s.fail k).valid = s.valid := rfl
@[simp] theorem State.fail_err (s : State) (k : ErrKind) : (s.fail k).err = k := rfl
@[simp] theorem State.fail_flen (s : State) (k : ErrKind) : (s.fail k).flen = s.flen := rfl
@[simp] theorem State.fail_hdr (s : State) (k : ErrKind) : (s.fail k).hdr = s.hdr := rfl
@[simp] theorem State.fail_fmem (s : State) (k : ErrKind) : (s.fail k).fmem = s.fmem := rfl
@[simp] theorem State.fail_pix (s : State) (k : ErrKind) : (s.fail k).pix = s.pix := rfl
@[simp] theorem State.fail_pal (s : State) (k : ErrKind) : (s.fail k).pal = s.pal := rfl
@[simp] theorem State.fail_lut (s : State) (k : ErrKind) : (s.fail k).lut = s.lut := rfl
@[simp] theorem State.fail_hist (s : State) (k : ErrKind) : (s.fail k).hist = s.hist := rfl
@[simp] theorem State.fail_cdf (s : State) (k : ErrKind) : (s.fail k).cdf = s.cdf := rfl
@[simp] theorem State.fail_draw (s : State) (k : ErrKind) : (s.fail k).draw = s.draw := rfl
@[simp] theorem State.fail_inbox (s : State) (k : ErrKind) : (s.fail k).inbox = s.inbox := rfl
@[simp] theorem State.fail_reply (s : State) (k : ErrKind) : (s.fail k).reply = s.reply := rfl

/-! ### The fields after `setPix` -/

@[simp] theorem State.setPix_caps (s : State) (n : Nat) (f : Nat → Byte) : (s.setPix n f).caps = s.caps := rfl
@[simp] theorem State.setPix_cmd (s : State) (n : Nat) (f : Nat → Byte) : (s.setPix n f).cmd = s.cmd := rfl
@[simp] theorem State.setPix_arg0 (s : State) (n : Nat) (f : Nat → Byte) : (s.setPix n f).arg0 = s.arg0 := rfl
@[simp] theorem State.setPix_arg1 (s : State) (n : Nat) (f : Nat → Byte) : (s.setPix n f).arg1 = s.arg1 := rfl
@[simp] theorem State.setPix_busy (s : State) (n : Nat) (f : Nat → Byte) : (s.setPix n f).busy = s.busy := rfl
@[simp] theorem State.setPix_valid (s : State) (n : Nat) (f : Nat → Byte) : (s.setPix n f).valid = s.valid := rfl
@[simp] theorem State.setPix_err (s : State) (n : Nat) (f : Nat → Byte) : (s.setPix n f).err = s.err := rfl
@[simp] theorem State.setPix_flen (s : State) (n : Nat) (f : Nat → Byte) : (s.setPix n f).flen = s.flen := rfl
@[simp] theorem State.setPix_hdr (s : State) (n : Nat) (f : Nat → Byte) : (s.setPix n f).hdr = s.hdr := rfl
@[simp] theorem State.setPix_fmem (s : State) (n : Nat) (f : Nat → Byte) : (s.setPix n f).fmem = s.fmem := rfl
@[simp] theorem State.setPix_pix (s : State) (n : Nat) (f : Nat → Byte) : (s.setPix n f).pix = s.pix.fill 0 n f := rfl
@[simp] theorem State.setPix_pal (s : State) (n : Nat) (f : Nat → Byte) : (s.setPix n f).pal = s.pal := rfl
@[simp] theorem State.setPix_lut (s : State) (n : Nat) (f : Nat → Byte) : (s.setPix n f).lut = s.lut := rfl
@[simp] theorem State.setPix_hist (s : State) (n : Nat) (f : Nat → Byte) : (s.setPix n f).hist = s.hist := rfl
@[simp] theorem State.setPix_cdf (s : State) (n : Nat) (f : Nat → Byte) : (s.setPix n f).cdf = s.cdf := rfl
@[simp] theorem State.setPix_draw (s : State) (n : Nat) (f : Nat → Byte) : (s.setPix n f).draw = s.draw := rfl
@[simp] theorem State.setPix_inbox (s : State) (n : Nat) (f : Nat → Byte) : (s.setPix n f).inbox = s.inbox := rfl
@[simp] theorem State.setPix_reply (s : State) (n : Nat) (f : Nat → Byte) : (s.setPix n f).reply = s.reply := rfl

/-! ### The fields after `withCommand` -/

@[simp] theorem State.withCommand_caps (s : State) (w : Word) : (s.withCommand w).caps = s.caps := rfl
@[simp] theorem State.withCommand_cmd (s : State) (w : Word) : (s.withCommand w).cmd = w := rfl
@[simp] theorem State.withCommand_arg0 (s : State) (w : Word) : (s.withCommand w).arg0 = s.arg0 := rfl
@[simp] theorem State.withCommand_arg1 (s : State) (w : Word) : (s.withCommand w).arg1 = s.arg1 := rfl
@[simp] theorem State.withCommand_busy (s : State) (w : Word) : (s.withCommand w).busy = true := rfl
@[simp] theorem State.withCommand_valid (s : State) (w : Word) : (s.withCommand w).valid = s.valid := rfl
@[simp] theorem State.withCommand_err (s : State) (w : Word) : (s.withCommand w).err = s.err := rfl
@[simp] theorem State.withCommand_flen (s : State) (w : Word) : (s.withCommand w).flen = s.flen := rfl
@[simp] theorem State.withCommand_hdr (s : State) (w : Word) : (s.withCommand w).hdr = s.hdr := rfl
@[simp] theorem State.withCommand_fmem (s : State) (w : Word) : (s.withCommand w).fmem = s.fmem := rfl
@[simp] theorem State.withCommand_pix (s : State) (w : Word) : (s.withCommand w).pix = s.pix := rfl
@[simp] theorem State.withCommand_pal (s : State) (w : Word) : (s.withCommand w).pal = s.pal := rfl
@[simp] theorem State.withCommand_lut (s : State) (w : Word) : (s.withCommand w).lut = s.lut := rfl
@[simp] theorem State.withCommand_hist (s : State) (w : Word) : (s.withCommand w).hist = s.hist := rfl
@[simp] theorem State.withCommand_cdf (s : State) (w : Word) : (s.withCommand w).cdf = s.cdf := rfl
@[simp] theorem State.withCommand_draw (s : State) (w : Word) : (s.withCommand w).draw = s.draw := rfl
@[simp] theorem State.withCommand_inbox (s : State) (w : Word) : (s.withCommand w).inbox = .sequencer :: s.inbox := rfl
@[simp] theorem State.withCommand_reply (s : State) (w : Word) : (s.withCommand w).reply = s.reply := rfl

/-! ### The fields after `resetEvent` -/

@[simp] theorem State.resetEvent_caps (s : State) : s.resetEvent.caps = s.caps := rfl
@[simp] theorem State.resetEvent_cmd (s : State) : s.resetEvent.cmd = 0 := rfl
@[simp] theorem State.resetEvent_arg0 (s : State) : s.resetEvent.arg0 = 0 := rfl
@[simp] theorem State.resetEvent_arg1 (s : State) : s.resetEvent.arg1 = 0 := rfl
@[simp] theorem State.resetEvent_busy (s : State) : s.resetEvent.busy = false := rfl
@[simp] theorem State.resetEvent_valid (s : State) : s.resetEvent.valid = false := rfl
@[simp] theorem State.resetEvent_err (s : State) : s.resetEvent.err = .ok := rfl
@[simp] theorem State.resetEvent_flen (s : State) : s.resetEvent.flen = 0 := rfl
@[simp] theorem State.resetEvent_hdr (s : State) : s.resetEvent.hdr = Header.zero := rfl
@[simp] theorem State.resetEvent_fmem (s : State) : s.resetEvent.fmem = [] := rfl
@[simp] theorem State.resetEvent_pix (s : State) : s.resetEvent.pix = [] := rfl
@[simp] theorem State.resetEvent_pal (s : State) : s.resetEvent.pal = [] := rfl
@[simp] theorem State.resetEvent_lut (s : State) : s.resetEvent.lut = [] := rfl
@[simp] theorem State.resetEvent_hist (s : State) : s.resetEvent.hist = [] := rfl
@[simp] theorem State.resetEvent_cdf (s : State) : s.resetEvent.cdf = [] := rfl
@[simp] theorem State.resetEvent_draw (s : State) : s.resetEvent.draw = s.draw + 1 := rfl
@[simp] theorem State.resetEvent_inbox (s : State) : s.resetEvent.inbox = s.inbox := rfl
@[simp] theorem State.resetEvent_reply (s : State) : s.resetEvent.reply = s.reply := rfl

/-! ### The fields after `allocEffect` -/

@[simp] theorem allocEffect_caps (d : Nat) (s : State) : (allocEffect d s).caps = s.caps := rfl
@[simp] theorem allocEffect_cmd (d : Nat) (s : State) : (allocEffect d s).cmd = s.cmd := rfl
@[simp] theorem allocEffect_arg0 (d : Nat) (s : State) : (allocEffect d s).arg0 = s.arg0 := rfl
@[simp] theorem allocEffect_arg1 (d : Nat) (s : State) : (allocEffect d s).arg1 = s.arg1 := rfl
@[simp] theorem allocEffect_busy (d : Nat) (s : State) : (allocEffect d s).busy = s.busy := rfl
@[simp] theorem allocEffect_valid (d : Nat) (s : State) : (allocEffect d s).valid = true := rfl
@[simp] theorem allocEffect_err (d : Nat) (s : State) : (allocEffect d s).err = s.err := rfl
@[simp] theorem allocEffect_flen (d : Nat) (s : State) : (allocEffect d s).flen = s.flen := rfl
@[simp] theorem allocEffect_hdr (d : Nat) (s : State) : (allocEffect d s).hdr = allocHeader s.arg0 s.arg1 d := rfl
@[simp] theorem allocEffect_fmem (d : Nat) (s : State) : (allocEffect d s).fmem = s.fmem := rfl
@[simp] theorem allocEffect_pix (d : Nat) (s : State) : (allocEffect d s).pix = s.pix.fill 0 (allocHeader s.arg0 s.arg1 d).nbytes (fun _ => 0) := rfl
@[simp] theorem allocEffect_pal (d : Nat) (s : State) : (allocEffect d s).pal = if d = 8 then s.pal.fill 0 paletteSize rampByte else s.pal := rfl
@[simp] theorem allocEffect_lut (d : Nat) (s : State) : (allocEffect d s).lut = s.lut := rfl
@[simp] theorem allocEffect_hist (d : Nat) (s : State) : (allocEffect d s).hist = s.hist := rfl
@[simp] theorem allocEffect_cdf (d : Nat) (s : State) : (allocEffect d s).cdf = s.cdf := rfl
@[simp] theorem allocEffect_draw (d : Nat) (s : State) : (allocEffect d s).draw = s.draw := rfl
@[simp] theorem allocEffect_inbox (d : Nat) (s : State) : (allocEffect d s).inbox = s.inbox := rfl
@[simp] theorem allocEffect_reply (d : Nat) (s : State) : (allocEffect d s).reply = s.reply := rfl

/-! ### The fields after `decodeEffect` -/

@[simp] theorem decodeEffect_caps (d : Nat) (s : State) : (decodeEffect d s).caps = s.caps := rfl
@[simp] theorem decodeEffect_cmd (d : Nat) (s : State) : (decodeEffect d s).cmd = s.cmd := rfl
@[simp] theorem decodeEffect_arg0 (d : Nat) (s : State) : (decodeEffect d s).arg0 = s.arg0 := rfl
@[simp] theorem decodeEffect_arg1 (d : Nat) (s : State) : (decodeEffect d s).arg1 = s.arg1 := rfl
@[simp] theorem decodeEffect_busy (d : Nat) (s : State) : (decodeEffect d s).busy = s.busy := rfl
@[simp] theorem decodeEffect_valid (d : Nat) (s : State) : (decodeEffect d s).valid = true := rfl
@[simp] theorem decodeEffect_err (d : Nat) (s : State) : (decodeEffect d s).err = s.err := rfl
@[simp] theorem decodeEffect_flen (d : Nat) (s : State) : (decodeEffect d s).flen = s.flen := rfl
@[simp] theorem decodeEffect_hdr (d : Nat) (s : State) : (decodeEffect d s).hdr = s.fileHeader := rfl
@[simp] theorem decodeEffect_fmem (d : Nat) (s : State) : (decodeEffect d s).fmem = s.fmem := rfl
@[simp] theorem decodeEffect_pix (d : Nat) (s : State) : (decodeEffect d s).pix = s.pix.fill 0 s.fileHeader.nbytes (decodedByte s s.fileHeader d) := rfl
@[simp] theorem decodeEffect_pal (d : Nat) (s : State) : (decodeEffect d s).pal = if d = 8 then s.pal.fill 0 paletteSize (fun k => s.readByte .fmem (headerSize + k)) else s.pal := rfl
@[simp] theorem decodeEffect_lut (d : Nat) (s : State) : (decodeEffect d s).lut = s.lut := rfl
@[simp] theorem decodeEffect_hist (d : Nat) (s : State) : (decodeEffect d s).hist = s.hist := rfl
@[simp] theorem decodeEffect_cdf (d : Nat) (s : State) : (decodeEffect d s).cdf = s.cdf := rfl
@[simp] theorem decodeEffect_draw (d : Nat) (s : State) : (decodeEffect d s).draw = s.draw := rfl
@[simp] theorem decodeEffect_inbox (d : Nat) (s : State) : (decodeEffect d s).inbox = s.inbox := rfl
@[simp] theorem decodeEffect_reply (d : Nat) (s : State) : (decodeEffect d s).reply = s.reply := rfl

/-! ### The fields after `encodeEffect` -/

@[simp] theorem encodeEffect_caps (s : State) : (encodeEffect s).caps = s.caps := rfl
@[simp] theorem encodeEffect_cmd (s : State) : (encodeEffect s).cmd = s.cmd := rfl
@[simp] theorem encodeEffect_arg0 (s : State) : (encodeEffect s).arg0 = s.arg0 := rfl
@[simp] theorem encodeEffect_arg1 (s : State) : (encodeEffect s).arg1 = s.arg1 := rfl
@[simp] theorem encodeEffect_busy (s : State) : (encodeEffect s).busy = s.busy := rfl
@[simp] theorem encodeEffect_valid (s : State) : (encodeEffect s).valid = s.valid := rfl
@[simp] theorem encodeEffect_err (s : State) : (encodeEffect s).err = s.err := rfl
@[simp] theorem encodeEffect_flen (s : State) : (encodeEffect s).flen = BitVec.ofNat 32 s.hdr.fileSize := rfl
@[simp] theorem encodeEffect_hdr (s : State) : (encodeEffect s).hdr = s.hdr := rfl
@[simp] theorem encodeEffect_fmem (s : State) : (encodeEffect s).fmem = s.fmem.fill 0 s.hdr.fileSize (emittedByte s) := rfl
@[simp] theorem encodeEffect_pix (s : State) : (encodeEffect s).pix = s.pix := rfl
@[simp] theorem encodeEffect_pal (s : State) : (encodeEffect s).pal = s.pal := rfl
@[simp] theorem encodeEffect_lut (s : State) : (encodeEffect s).lut = s.lut := rfl
@[simp] theorem encodeEffect_hist (s : State) : (encodeEffect s).hist = s.hist := rfl
@[simp] theorem encodeEffect_cdf (s : State) : (encodeEffect s).cdf = s.cdf := rfl
@[simp] theorem encodeEffect_draw (s : State) : (encodeEffect s).draw = s.draw := rfl
@[simp] theorem encodeEffect_inbox (s : State) : (encodeEffect s).inbox = s.inbox := rfl
@[simp] theorem encodeEffect_reply (s : State) : (encodeEffect s).reply = s.reply := rfl

end Sys2Proof.Machine
end

