-- ==== Sys2Proof/Laws/Ops.lean ====
section
/-! SUPPORT. One lemma for everything a shared operation can do: the reads of one byte or word after the state updates,
the check list, and `runCommand`. -/

namespace Sys2Proof.Machine

/-! ### The reads see only their memory and the draw -/

theorem State.readByte_eq (s : State) (S : ByteSpace) (i : Nat) :
    s.readByte S i = ((s.byteMem S).read i).getD (Config.powerOnByte S s.draw i) := rfl

theorem State.readByte_congr {s t : State} (S : ByteSpace) (i : Nat) (hm : (s.byteMem S).read i = (t.byteMem S).read i)
    (hd : s.draw = t.draw) : s.readByte S i = t.readByte S i := by
  rw [State.readByte, State.readByte, hm, hd]

theorem State.readWord_congr {s t : State} (S : WordSpace) (i : Nat) (hm : (s.wordMem S).read i = (t.wordMem S).read i)
    (hd : s.draw = t.draw) : s.readWord S i = t.readWord S i := by
  rw [State.readWord, State.readWord, hm, hd]

@[simp] theorem State.readByte_done (s : State) (S : ByteSpace) (i : Nat) : s.done.readByte S i = s.readByte S i := by
  cases S <;> rfl

@[simp] theorem State.readByte_fail (s : State) (k : ErrKind) (S : ByteSpace) (i : Nat) :
    (s.fail k).readByte S i = s.readByte S i := by
  cases S <;> rfl

@[simp] theorem State.readWord_done (s : State) (S : WordSpace) (i : Nat) : s.done.readWord S i = s.readWord S i := by
  cases S <;> rfl

@[simp] theorem State.readWord_fail (s : State) (k : ErrKind) (S : WordSpace) (i : Nat) :
    (s.fail k).readWord S i = s.readWord S i := by
  cases S <;> rfl

/-! ### A byte or word after its memory was filled from index 0 -/

/-- The byte at an index below the length of a fill from 0. -/
theorem State.readByte_of_fill_lt {s : State} {S : ByteSpace} {m : Memory 8} {n : Nat} {f : Nat → Byte}
    (hm : s.byteMem S = m.fill 0 n f) {i : Nat} (h : i < n) : s.readByte S i = f i := by
  rw [State.readByte, hm, Memory.read_fill_zero_of_lt m n f i h]; rfl

/-- The byte at an index from the length of the fill on is what it was. -/
theorem State.readByte_of_fill_le {s t : State} {S : ByteSpace} {n : Nat} {f : Nat → Byte}
    (hm : t.byteMem S = (s.byteMem S).fill 0 n f) (hd : t.draw = s.draw) {i : Nat} (h : n ≤ i) :
    t.readByte S i = s.readByte S i := by
  rw [State.readByte, hm, hd, Memory.read_fill_zero_of_le _ n f i h]; rfl

/-- The word at an index below the length of a fill from 0. -/
theorem State.readWord_of_fill_lt {s : State} {S : WordSpace} {m : Memory 32} {n : Nat} {f : Nat → Word}
    (hm : s.wordMem S = m.fill 0 n f) {i : Nat} (h : i < n) : s.readWord S i = f i := by
  rw [State.readWord, hm, Memory.read_fill_zero_of_lt m n f i h]; rfl

@[simp] theorem State.readByte_setPix_of_lt (s : State) (n : Nat) (f : Nat → Byte) (i : Nat) (h : i < n) :
    (s.setPix n f).readByte .pix i = f i := State.readByte_of_fill_lt (m := s.pix) rfl h

theorem State.readByte_setPix_of_le (s : State) (n : Nat) (f : Nat → Byte) (i : Nat) (h : n ≤ i) :
    (s.setPix n f).readByte .pix i = s.readByte .pix i :=
  State.readByte_of_fill_le (s := s) (t := s.setPix n f) (S := .pix) (f := f) rfl rfl h

theorem State.readByte_setPix_of_ne (s : State) (n : Nat) (f : Nat → Byte) (S : ByteSpace) (i : Nat) (h : S ≠ .pix) :
    (s.setPix n f).readByte S i = s.readByte S i := by
  cases S <;> first | rfl | exact absurd rfl h

/-! ### The check list and `runCommand` -/

@[simp] theorem firstFailing_nil : firstFailing [] = none := rfl

@[simp] theorem firstFailing_cons (b : Bool) (k : ErrKind) (rest : List (Bool × ErrKind)) :
    firstFailing ((b, k) :: rest) = if b then some k else firstFailing rest := rfl

/-- No check fails exactly when every one passes. -/
theorem firstFailing_eq_none_iff (cs : List (Bool × ErrKind)) : firstFailing cs = none ↔ ∀ c ∈ cs, c.1 = false := by
  induction cs with
  | nil => simp
  | cons c cs ih => obtain ⟨b, k⟩ := c; cases b <;> simp_all

/-- A failing check list reports the kind of one of its checks. -/
theorem firstFailing_mem {cs : List (Bool × ErrKind)} {k : ErrKind} (h : firstFailing cs = some k) : (true, k) ∈ cs := by
  induction cs with
  | nil => simp at h
  | cons c cs ih => obtain ⟨b, k'⟩ := c; cases b <;> simp_all

theorem runCommand_of_fail {cs : List (Bool × ErrKind)} {k : ErrKind} (h : firstFailing cs = some k)
    (effect : State → State) (s : State) : runCommand cs effect s = .next (s.fail k) := by
  rw [runCommand, h]

theorem runCommand_of_ok {cs : List (Bool × ErrKind)} (h : firstFailing cs = none) (effect : State → State) (s : State) :
    runCommand cs effect s = .next (effect s).done := by
  rw [runCommand, h]

/-- Everything `runCommand` can do: the first failing check's `fail`, or the effect and `done`. -/
theorem runCommand_cases (cs : List (Bool × ErrKind)) (effect : State → State) (s : State) :
    (∃ k, firstFailing cs = some k ∧ runCommand cs effect s = .next (s.fail k)) ∨
      (firstFailing cs = none ∧ runCommand cs effect s = .next (effect s).done) := by
  cases h : firstFailing cs with
  | none => exact .inr ⟨rfl, runCommand_of_ok h effect s⟩
  | some k => exact .inl ⟨k, rfl, runCommand_of_fail h effect s⟩

end Sys2Proof.Machine
end

