-- ==== Sys2Proof/Laws/Exec.lean ====
section
/-! SUPPORT. What a command can do, said once: every command is its check list and its writes run by `runCommand`
(`exec_eq_runCommand`), so `exec` answers a next state that is either a `fail` or the writes followed by `done`
(`exec_cases`). Then what each command's checks and writes are. -/

namespace Sys2Proof.Machine

/-- The check list of each command (R107 and the command's own rule). -/
def checksOf (i : Instr) (s : State) : List (Bool × ErrKind) :=
  match i with
  | .nop | .free => []
  | .decode8 => decodeChecks 8 s
  | .decode24 => decodeChecks 24 s
  | .encode => encodeChecks s
  | .alloc depth => allocChecks depth s
  | .neg | .bright | .thresh | .equalize => [needsImage s]
  | .gray => [needsImage s, (s.hdr.depth == 8, .illegalCommand)]
  | .blur | .gauss | .outline | .emboss | .sharpen =>
    [needsImage s, (decide (s.hdr.w < 3) || decide (s.hdr.rows < 3), .size)]

/-- The writes of each command. -/
def effectOf (i : Instr) (s : State) : State :=
  match i with
  | .nop => s
  | .free => { s with valid := false }
  | .decode8 => decodeEffect 8 s
  | .decode24 => decodeEffect 24 s
  | .encode => encodeEffect s
  | .alloc depth => allocEffect depth s
  | .neg => s.setPix s.hdr.nbytes (fun i => toByte (negValue (s.pixVal i)))
  | .bright => s.setPix s.hdr.nbytes (fun i => toByte (brightValue (s32 s.arg0) (s.pixVal i)))
  | .thresh => threshEffect s
  | .gray => s.setPix (3 * s.hdr.npix) (fun i => toByte (s.grayOf (i / 3)))
  | .blur => s.setPix s.hdr.nbytes (filteredByte kernelBlur s)
  | .gauss => s.setPix s.hdr.nbytes (filteredByte kernelGauss s)
  | .outline => s.setPix s.hdr.nbytes (filteredByte kernelOutline s)
  | .emboss => s.setPix s.hdr.nbytes (filteredByte kernelEmboss s)
  | .sharpen => s.setPix s.hdr.nbytes (filteredByte kernelSharpen s)
  | .equalize => equalizeEffect s

/-- Every command is its checks and its writes. -/
theorem exec_eq_runCommand (i : Instr) (s : State) : exec i s = runCommand (checksOf i s) (effectOf i) s := by
  cases i <;> rfl

/-- Everything a command can do: the first failing check's `fail` with nothing else changed, or its writes and `done`. -/
theorem exec_cases (i : Instr) (s : State) :
    (∃ k, firstFailing (checksOf i s) = some k ∧ exec i s = .next (s.fail k)) ∨
      (firstFailing (checksOf i s) = none ∧ exec i s = .next (effectOf i s).done) := by
  rw [exec_eq_runCommand]; exact runCommand_cases _ _ s

theorem exec_of_fail {i : Instr} {s : State} {k : ErrKind} (h : firstFailing (checksOf i s) = some k) :
    exec i s = .next (s.fail k) := by
  rw [exec_eq_runCommand, runCommand_of_fail h]

theorem exec_of_ok {i : Instr} {s : State} (h : firstFailing (checksOf i s) = none) :
    exec i s = .next (effectOf i s).done := by
  rw [exec_eq_runCommand, runCommand_of_ok h]

/-! ### The frame of the pixel transforms -/

theorem threshEffect_eq_setPix (s : State) : ∃ n f, threshEffect s = s.setPix n f := by
  unfold threshEffect; split <;> exact ⟨_, _, rfl⟩

theorem equalizePixels_eq_setPix (s : State) : ∃ n f, equalizePixels s = s.setPix n f := by
  unfold equalizePixels; split <;> exact ⟨_, _, rfl⟩

/-- EQUALIZE changes the pixels and the three tables only. -/
theorem equalizeEffect_frame (s : State) :
    equalizeEffect s = { s with
      pix := (equalizeEffect s).pix, hist := (equalizeEffect s).hist, cdf := (equalizeEffect s).cdf,
      lut := (equalizeEffect s).lut } := by
  obtain ⟨n, f, h⟩ := equalizePixels_eq_setPix s
  unfold equalizeEffect; rw [h]; rfl

@[simp] theorem equalizeEffect_hist (s : State) :
    (equalizeEffect s).hist = s.hist.fill 0 bins (fun v => BitVec.ofNat 32 (s.histOf v)) := rfl

@[simp] theorem equalizeEffect_cdf (s : State) :
    (equalizeEffect s).cdf = s.cdf.fill 0 bins (fun v => BitVec.ofNat 32 (s.cdfOf v)) := rfl

@[simp] theorem equalizeEffect_lut (s : State) :
    (equalizeEffect s).lut = s.lut.fill 0 bins (fun v => toByte (s.lutOf v)) := rfl

@[simp] theorem equalizeEffect_pix (s : State) : (equalizeEffect s).pix = (equalizePixels s).pix := rfl

/-- The transforms but EQUALIZE change the pixels only: their effect is one `setPix`. -/
theorem effectOf_eq_setPix {i : Instr} (s : State)
    (hi : i ∈ [.neg, .bright, .thresh, .gray, .blur, .gauss, .outline, .emboss, .sharpen]) :
    ∃ n f, effectOf i s = s.setPix n f := by
  simp only [List.mem_cons, List.not_mem_nil, or_false] at hi
  rcases hi with rfl | rfl | rfl | rfl | rfl | rfl | rfl | rfl | rfl
  case inr.inr.inl => exact threshEffect_eq_setPix s
  all_goals exact ⟨_, _, rfl⟩

/-- No command changes the parameters, the operand registers, CMD, the draw or the host's side. -/
theorem effectOf_frame (i : Instr) (s : State) :
    (effectOf i s).caps = s.caps ∧ (effectOf i s).cmd = s.cmd ∧ (effectOf i s).arg0 = s.arg0 ∧
      (effectOf i s).arg1 = s.arg1 ∧ (effectOf i s).draw = s.draw ∧ (effectOf i s).inbox = s.inbox ∧
      (effectOf i s).reply = s.reply := by
  by_cases hi : i ∈ [.neg, .bright, .thresh, .gray, .blur, .gauss, .outline, .emboss, .sharpen]
  · obtain ⟨n, f, h⟩ := effectOf_eq_setPix s hi
    rw [h]; exact ⟨rfl, rfl, rfl, rfl, rfl, rfl, rfl⟩
  · cases i with
    | equalize =>
      have h := equalizeEffect_frame s
      simp only [effectOf]; rw [h]; exact ⟨rfl, rfl, rfl, rfl, rfl, rfl, rfl⟩
    | nop | free | decode8 | decode24 | encode | alloc => exact ⟨rfl, rfl, rfl, rfl, rfl, rfl, rfl⟩
    | _ => simp at hi

/-! ### DECODE -/

/-- The checks of DECODE all pass exactly when the file is accepted (R130 steps 1 to 7). -/
theorem decodeChecks_eq_none_iff (d : Nat) (s : State) :
    firstFailing (decodeChecks d s) = none ↔ s.fileAccepted d := by
  rw [firstFailing_eq_none_iff]
  simp only [decodeChecks, List.mem_cons, List.not_mem_nil, or_false, forall_eq_or_imp, forall_eq, decide_eq_false_iff_not,
    Bool.or_eq_false_iff, Bool.and_eq_false_imp, bne_eq_false_iff_eq, beq_iff_eq, Int.not_le, Nat.not_lt, gt_iff_lt,
    headerSize, paletteSize, State.fileAccepted, and_assoc, ne_eq]

/-- DECODE of an accepted file completes with its writes (R130 steps 8 to 11). -/
theorem exec_decode_of_accepted {i : Instr} {d : Nat} {s : State} (hi : (i = .decode8 ∧ d = 8) ∨ (i = .decode24 ∧ d = 24))
    (h : s.fileAccepted d) : exec i s = .next (decodeEffect d s).done := by
  have hc := (decodeChecks_eq_none_iff d s).2 h
  rcases hi with ⟨rfl, rfl⟩ | ⟨rfl, rfl⟩ <;> exact exec_of_ok hc

/-- The fields of the file's header as numbers (R133). -/
theorem State.fileHeader_toNat (s : State) :
    s.fileHeader.doff.toNat = u32le (s.readByte .fmem) 10 ∧ s.fileHeader.planes.toNat = u16le (s.readByte .fmem) 26 ∧
      s.fileHeader.bpp.toNat = u16le (s.readByte .fmem) 28 ∧ s.fileHeader.compr.toNat = u32le (s.readByte .fmem) 30 := by
  simp only [State.fileHeader, extractHeader, BitVec.toNat_ofNat]
  exact ⟨Nat.mod_eq_of_lt (u32le_lt _ _), Nat.mod_eq_of_lt (u16le_lt _ _), Nat.mod_eq_of_lt (u16le_lt _ _),
    Nat.mod_eq_of_lt (u32le_lt _ _)⟩

/-- The resolved offset of the file, from its bytes (R136). -/
theorem State.dataOffset_fileHeader (s : State) (d : Nat) :
    dataOffset s.fileHeader d =
      if u32le (s.readByte .fmem) 10 ≠ 0 then u32le (s.readByte .fmem) 10 else canonOf d := by
  have h := s.fileHeader_toNat.1
  have hz : s.fileHeader.doff ≠ 0 ↔ u32le (s.readByte .fmem) 10 ≠ 0 := by
    rw [← h, not_iff_not]; exact ⟨fun e => by rw [e]; rfl, fun e => BitVec.eq_of_toNat_eq e⟩
  simp only [dataOffset, hz, h]

/-- The geometry of a file of depth `d` in DECODE's own terms. -/
theorem Header.nbytes_of_depth {h : Header} {d : Nat} (hd : h.bpp.toNat = d) :
    h.nbytes = (s32 h.width).toNat * h.rows * (d / 8) := by
  subst hd; rfl

/-- The pixel byte DECODE stores at P(y, x, c) (R140 to R142). -/
theorem decodedByte_pixIndex (s : State) (f : Header) (d y x c : Nat) (hx : x < f.w) (hc : c < f.bppb) :
    decodedByte s f d (f.pixIndex y x c)
      = s.readByte .fmem (f.filePixelIndex (dataOffset f d) (f.fileRow y) x (f.swapChan c)) := by
  rw [decodedByte, f.rowOf_pixIndex hx hc, f.colOf_pixIndex hx hc, f.chanOf_pixIndex hc]

/-- A pixel byte after a successful DECODE (R140 to R142). -/
theorem readByte_pix_decodeEffect (d : Nat) (s : State) (y x c : Nat) (hy : y < s.fileHeader.rows) (hx : x < s.fileHeader.w)
    (hc : c < s.fileHeader.bppb) :
    (decodeEffect d s).readByte .pix (s.fileHeader.pixIndex y x c)
      = s.readByte .fmem (s.fileHeader.filePixelIndex (dataOffset s.fileHeader d) (s.fileHeader.fileRow y) x
          (s.fileHeader.swapChan c)) := by
  rw [State.readByte_of_fill_lt (m := s.pix) (n := s.fileHeader.nbytes) (f := decodedByte s s.fileHeader d) rfl
    (s.fileHeader.pixIndex_lt hy hx hc), decodedByte_pixIndex s s.fileHeader d y x c hx hc]

/-! ### ENCODE -/

/-- ENCODE of a file that fits completes with its writes (R150 steps 3 to 7). -/
theorem exec_encode_of_fits {s : State} (hv : s.valid = true) (h : s.hdr.fileSize ≤ s.caps.fileCap) :
    exec .encode s = .next (encodeEffect s).done :=
  exec_of_ok (i := .encode) (by simpa [checksOf, encodeChecks, needsImage, hv] using h)

/-- The file byte ENCODE emits at an index below the file size. -/
theorem readByte_fmem_encodeEffect_of_lt (s : State) {k : Nat} (h : k < s.hdr.fileSize) :
    (encodeEffect s).readByte .fmem k = emittedByte s k :=
  State.readByte_of_fill_lt (m := s.fmem) rfl h

/-- ENCODE leaves the file bytes from the file size on alone (R156). -/
theorem readByte_fmem_encodeEffect_of_le (s : State) {k : Nat} (h : s.hdr.fileSize ≤ k) :
    (encodeEffect s).readByte .fmem k = s.readByte .fmem k :=
  State.readByte_of_fill_le (s := s) (t := encodeEffect s) (S := .fmem) (f := emittedByte s) rfl rfl h

/-- A header byte of the emitted file (R153). -/
theorem emittedByte_header (s : State) {k : Nat} (h : k < 54) : emittedByte s k = s.hdr.emitted.getD k 0 := if_pos h

/-- A palette byte of the emitted file (R154). -/
theorem emittedByte_palette (s : State) {k : Nat} (h : 54 ≤ k) (hc : k < s.hdr.canon) :
    emittedByte s k = s.readByte .pal (k - 54) := by
  rw [emittedByte, if_neg (by unfold headerSize; omega), if_pos hc]

theorem Header.le_canon (h : Header) : 54 ≤ h.canon := by
  unfold Header.canon canonOf headerSize; split <;> omega

/-- A row byte of the emitted file: byte `j` of file row `r` (R155). -/
theorem emittedByte_row (s : State) {r j : Nat} (hj : j < s.hdr.stride) :
    emittedByte s (s.hdr.canon + r * s.hdr.stride + j) =
      if j < s.hdr.w * s.hdr.bppb then
        s.readByte .pix (s.hdr.pixIndex (s.hdr.rows - 1 - r) (j / s.hdr.bppb) (s.hdr.swapChan (j % s.hdr.bppb)))
      else 0 := by
  have hc := s.hdr.le_canon
  have hk : s.hdr.canon + r * s.hdr.stride + j - s.hdr.canon = j + r * s.hdr.stride := by omega
  rw [emittedByte, if_neg (by unfold headerSize; omega), if_neg (by omega), emittedRowByte, hk,
    Nat.add_mul_mod_self_right, Nat.mod_eq_of_lt hj, Nat.add_mul_div_right _ _ (by omega), Nat.div_eq_of_lt hj,
    Nat.zero_add]

/-- Every byte of every row lies inside the emitted file. -/
theorem Header.row_lt_fileSize (h : Header) {r j : Nat} (hr : r < h.rows) (hj : j < h.stride) :
    h.canon + r * h.stride + j < h.fileSize := by
  have : r * h.stride + j < h.stride * h.rows := by
    calc r * h.stride + j < r * h.stride + h.stride := by omega
      _ = (r + 1) * h.stride := by ring
      _ ≤ h.rows * h.stride := Nat.mul_le_mul_right _ hr
      _ = h.stride * h.rows := Nat.mul_comm _ _
  unfold Header.fileSize Header.imageSize; omega

/-! ### The filters -/

/-- The nine terms of S, written out. -/
theorem kernelSum_eq (K : Kernel) (s : State) (y x c : Nat) :
    kernelSum K s y x c =
      (K.coeff 0 0 * s.pixVal (s.hdr.pixIndex (y - 1) (x - 1) c) + K.coeff 0 1 * s.pixVal (s.hdr.pixIndex (y - 1) x c)
          + K.coeff 0 2 * s.pixVal (s.hdr.pixIndex (y - 1) (x + 1) c))
        + (K.coeff 1 0 * s.pixVal (s.hdr.pixIndex y (x - 1) c) + K.coeff 1 1 * s.pixVal (s.hdr.pixIndex y x c)
          + K.coeff 1 2 * s.pixVal (s.hdr.pixIndex y (x + 1) c))
        + (K.coeff 2 0 * s.pixVal (s.hdr.pixIndex (y + 1) (x - 1) c) + K.coeff 2 1 * s.pixVal (s.hdr.pixIndex (y + 1) x c)
          + K.coeff 2 2 * s.pixVal (s.hdr.pixIndex (y + 1) (x + 1) c)) := by
  simp only [kernelSum, List.range_succ, List.range_zero, List.nil_append, List.map_append, List.map_cons, List.map_nil,
    List.sum_append, List.sum_cons, List.sum_nil, add_zero, Nat.add_sub_cancel,
    show ∀ n, n + 2 - 1 = n + 1 from fun n => rfl]

/-- A filtered byte at an interior pixel (R220). -/
theorem filteredByte_interior (K : Kernel) (s : State) {y x c : Nat} (hy : 1 ≤ y ∧ y + 2 ≤ s.hdr.rows)
    (hx : 1 ≤ x ∧ x + 2 ≤ s.hdr.w) (hc : c < s.hdr.bppb) :
    filteredByte K s (s.hdr.pixIndex y x c) = toByte (clamp8 (rnd (kernelSum K s y x c) K.div + K.bias)) := by
  have hxw : x < s.hdr.w := by omega
  simp only [filteredByte, s.hdr.rowOf_pixIndex hxw hc, s.hdr.colOf_pixIndex hxw hc, s.hdr.chanOf_pixIndex hc,
    Header.interior, hy, hx, decide_true, Bool.and_self, if_true]

/-- A filtered byte at a border pixel is the old byte (R223). -/
theorem filteredByte_border (K : Kernel) (s : State) {y x c : Nat} (hx : x < s.hdr.w) (hc : c < s.hdr.bppb)
    (h : ¬((1 ≤ y ∧ y + 2 ≤ s.hdr.rows) ∧ 1 ≤ x ∧ x + 2 ≤ s.hdr.w)) :
    filteredByte K s (s.hdr.pixIndex y x c) = s.readByte .pix (s.hdr.pixIndex y x c) := by
  simp only [filteredByte, s.hdr.rowOf_pixIndex hx hc, s.hdr.colOf_pixIndex hx hc, Header.interior]
  rw [if_neg]
  simp only [Bool.and_eq_true, decide_eq_true_eq]
  tauto

/-! ### EQUALIZE -/

theorem histCount_le (level : Nat → Nat) (n v : Nat) : histCount level n v ≤ n := by
  simpa [histCount] using List.countP_le_length (p := fun p => level p == v) (l := List.range n)

/-- CDF[v] counts the pixels of level at most `v` (R252). -/
theorem cdfCount_histCount (level : Nat → Nat) (n v : Nat) :
    cdfCount (histCount level n) v = (List.range n).countP (fun p => decide (level p ≤ v)) := by
  induction v with
  | zero => simp [cdfCount, histCount, beq_eq_decide]
  | succ v ih =>
    rw [cdfCount, ih, histCount]
    generalize List.range n = l
    induction l with
    | nil => rfl
    | cons p l ihl =>
      simp only [List.countP_cons]
      rw [← ihl]
      simp only [decide_eq_true_eq, beq_iff_eq]
      split_ifs <;> omega

end Sys2Proof.Machine
end

