-- ==== Sys2Proof/Laws/PerInstr.lean ====
section
/-! SUPPORT. Per-command facts about the encoding. Family `EncodedFields`: the word of a well-formed command has its
opcode in bits [7:0], its immediate in bits [15:8] and zeros above (30_encoding.md R90). -/

namespace Sys2Proof.Laws.EncodedFields

/-- The three fields of the command's word are the ones the format names. -/
def Statement (i : Instr) : Prop :=
  i.wellFormed = true →
    opField (encode i) = i.opcode ∧ immField (encode i) = i.imm8 ∧ zeroField (encode i) = 0

theorem nop : Statement .nop := by intro _; decide
theorem decode8 : Statement .decode8 := by intro _; decide
theorem decode24 : Statement .decode24 := by intro _; decide
theorem encode : Statement .encode := by intro _; decide
theorem alloc (depth : Nat) : Statement (.alloc depth) := by
  intro h
  have h : depth < 256 := by simpa [Instr.wellFormed] using h
  simp only [opField, immField, zeroField, bits, Sys2Proof.encode, Instr.opcode, Instr.imm8, BitVec.extractLsb_toNat,
    BitVec.toNat_ofNat, Nat.shiftRight_eq_div_pow]
  omega
theorem free : Statement .free := by intro _; decide
theorem neg : Statement .neg := by intro _; decide
theorem bright : Statement .bright := by intro _; decide
theorem thresh : Statement .thresh := by intro _; decide
theorem gray : Statement .gray := by intro _; decide
theorem blur : Statement .blur := by intro _; decide
theorem gauss : Statement .gauss := by intro _; decide
theorem outline : Statement .outline := by intro _; decide
theorem emboss : Statement .emboss := by intro _; decide
theorem sharpen : Statement .sharpen := by intro _; decide
theorem equalize : Statement .equalize := by intro _; decide

end Sys2Proof.Laws.EncodedFields
end

