-- ==== Sys2Proof/Laws/Step.lean ====
section
/-! SUPPORT. What one step can do, said once (`step_cases`), and what each of its parts does. -/

namespace Sys2Proof.Machine

theorem step_of_event {s : State} {e : Event} {rest : List Event} (h : s.inbox = e :: rest) :
    step s = handleEvent e { s with inbox := rest } := by
  rw [step, nextEvent, h]

theorem step_of_empty {s : State} (h : s.inbox = []) : step s = sequencerTurn s := by
  rw [step, nextEvent, h]

theorem sequencerTurn_of_idle {s : State} (h : s.busy = false) : sequencerTurn s = .next s := by
  rw [sequencerTurn, h]; rfl

theorem sequencerTurn_of_busy {s : State} (h : s.busy = true) : sequencerTurn s = runCmd s := by
  rw [sequencerTurn, h]; rfl

theorem runCmd_of_ok {s : State} {i : Instr} (h : decode s.cmd = .ok i) : runCmd s = exec i s := by
  rw [runCmd, h]

theorem runCmd_of_error {s : State} {e : Illegal} (h : decode s.cmd = .error e) :
    runCmd s = .next (s.fail .illegalCommand) := by
  rw [runCmd, h]

/-- Everything the sequencer's turn can do: nothing while idle, the error entry, or a command's writes and `done`. -/
theorem sequencerTurn_cases (s : State) :
    (s.busy = false ∧ sequencerTurn s = .next s) ∨
      (s.busy = true ∧ ∃ k, sequencerTurn s = .next (s.fail k)) ∨
      (s.busy = true ∧ ∃ i, decode s.cmd = .ok i ∧ firstFailing (checksOf i s) = none ∧
        sequencerTurn s = .next (effectOf i s).done) := by
  cases hb : s.busy with
  | false => exact .inl ⟨rfl, sequencerTurn_of_idle hb⟩
  | true =>
    rw [sequencerTurn_of_busy hb]
    cases hd : decode s.cmd with
    | error e => exact .inr (.inl ⟨rfl, _, runCmd_of_error hd⟩)
    | ok i =>
      rw [runCmd_of_ok hd]
      rcases exec_cases i s with ⟨k, -, h⟩ | ⟨hc, h⟩
      · exact .inr (.inl ⟨rfl, k, h⟩)
      · exact .inr (.inr ⟨rfl, i, rfl, hc, h⟩)

/-- Everything a host transaction can do: it is refused while BUSY, refused outside the extent, or takes effect. -/
theorem performTxn_cases (t : Txn) (s : State) :
    (s.busy = true ∧ t.allowedWhileBusy = false ∧ performTxn t s = .refused .hostWhileBusy) ∨
      ((s.busy = false ∨ t.allowedWhileBusy = true) ∧ Txn.inExtent s t = false ∧
        performTxn t s = .refused .indexOutOfExtent) ∨
      ((s.busy = false ∨ t.allowedWhileBusy = true) ∧ Txn.inExtent s t = true ∧
        performTxn t s = .next (Txn.effect s t)) := by
  unfold performTxn
  cases hb : s.busy <;> cases ha : t.allowedWhileBusy <;> cases he : Txn.inExtent s t <;> simp

/-- Everything one step can do. -/
theorem step_cases (s : State) :
    (s.inbox = [] ∧ step s = sequencerTurn s) ∨
      (∃ t rest, s.inbox = .host t :: rest ∧ step s = performTxn t { s with inbox := rest }) ∨
      (∃ rest, s.inbox = .sequencer :: rest ∧ step s = sequencerTurn { s with inbox := rest }) ∨
      (∃ rest, s.inbox = .rst :: rest ∧ step s = .next ({ s with inbox := rest } : State).resetEvent) := by
  cases h : s.inbox with
  | nil => exact .inl ⟨rfl, step_of_empty h⟩
  | cons e rest =>
    rw [step_of_event h]
    cases e with
    | host t => exact .inr (.inl ⟨t, rest, rfl, rfl⟩)
    | sequencer => exact .inr (.inr (.inl ⟨rest, rfl, rfl⟩))
    | rst => exact .inr (.inr (.inr ⟨rest, rfl, rfl⟩))

/-! ### The host port -/

theorem State.regRead_status (s : State) : s.regRead 0x0C = s.status := rfl

/-- A reserved address reads 0 (R61). -/
theorem State.regRead_of_reserved {s : State} {a : Nat} (h : s.registers.lookup a = none) : s.regRead a = 0 := by
  rw [State.regRead, h]; rfl

/-- A register write touches CMD, BUSY, ARG0, ARG1 and FLEN only (R61). -/
theorem State.regWrite_frame (s : State) (a : Nat) (v : Word) :
    s.regWrite a v = { s with
      cmd := (s.regWrite a v).cmd, busy := (s.regWrite a v).busy, arg0 := (s.regWrite a v).arg0,
      arg1 := (s.regWrite a v).arg1, flen := (s.regWrite a v).flen } := by
  unfold State.regWrite; split_ifs <;> rfl

/-- A byte write touches the memories FMEM, PIX and PAL only (R62). -/
theorem State.writeByte_frame (s : State) (S : ByteSpace) (i : Nat) (v : Byte) :
    s.writeByte S i v = { s with
      fmem := (s.writeByte S i v).fmem, pix := (s.writeByte S i v).pix, pal := (s.writeByte S i v).pal } := by
  cases S <;> rfl

/-- A byte write is read back in FMEM, PIX and PAL (R62). -/
theorem State.readByte_writeByte_self (s : State) {S : ByteSpace} (i : Nat) (v : Byte) (h : S ≠ .lut) :
    (s.writeByte S i v).readByte S i = v := by
  cases S
  case lut => exact absurd rfl h
  all_goals simp [State.readByte, State.writeByte, State.byteMem]

/-- A byte write leaves every other byte of every byte space alone. -/
theorem State.readByte_writeByte_of_ne (s : State) (S S' : ByteSpace) (i j : Nat) (v : Byte) (h : ¬(S' = S ∧ j = i)) :
    (s.writeByte S i v).readByte S' j = s.readByte S' j := by
  apply State.readByte_congr
  · cases S <;> cases S' <;> first
      | rfl
      | exact Memory.read_write_of_ne _ _ _ _ (fun hj => h ⟨rfl, hj⟩)
  · cases S <;> rfl

/-! ### Keeping the memories in form -/

/-- Every byte write inside the extents keeps the memories in form. -/
theorem State.memoriesOk_writeByte {s : State} (h : s.memoriesOk) (S : ByteSpace) (i : Nat) (v : Byte)
    (hi : i < s.byteExtent S) : (s.writeByte S i v).memoriesOk := by
  obtain ⟨⟨hf, hp, hl⟩, rest⟩ := h
  cases S
  · exact ⟨⟨⟨Memory.write_wf _ _ _ hf.1, Memory.write_within _ _ _ _ hf.2 hi⟩, hp, hl⟩, rest⟩
  · exact ⟨⟨hf, ⟨Memory.write_wf _ _ _ hp.1, Memory.write_within _ _ _ _ hp.2 hi⟩, hl⟩, rest⟩
  · exact ⟨⟨hf, hp, ⟨Memory.write_wf _ _ _ hl.1, Memory.write_within _ _ _ _ hl.2 hi⟩⟩, rest⟩
  · exact ⟨⟨hf, hp, hl⟩, rest⟩

/-- The unwritten memories of a reset are in form. -/
theorem State.memoriesOk_resetWith (caps : Caps) (draw : Nat) (inbox : List Event) :
    (State.resetWith caps draw inbox).memoriesOk := by
  simp [State.resetWith, State.memoriesOk, Memory.ok, Memory.wf, Memory.within]

end Sys2Proof.Machine
end

