-- ==== Sys2Proof/Machine/HostProgram.lean ====
section
/-! DEFINITION. The host-program lines of 30_encoding.md R104 and the pseudo-instructions of R105, each as the host
actions it stands for. `EXPECT` is an assertion, not an action, and has no line here. How many STATUS reads return
BUSY = 1 while a command waits is left open by R69 and R104, so it is an argument `polls` wherever a command is issued, the
pseudo-instructions included (DEDUCED, log entry 16). -/

namespace Sys2Proof.Machine

/-- A line of a host program (R104). `polls` is how many STATUS reads return BUSY = 1 before the sequencer takes its
step: any number may (R69, R346; log entry 16). -/
inductive Line where
  /-- `FILE b0 b1 …`. -/
  | file (bytes : List Byte)
  /-- `FBYTE i, b`. -/
  | fbyte (i : Nat) (b : Byte)
  /-- `FLEN n`. -/
  | flen (n : Word)
  /-- `PIXW i, b0 b1 …`. -/
  | pixw (i : Nat) (bytes : List Byte)
  /-- `PALW i, b0 b1 …`. -/
  | palw (i : Nat) (bytes : List Byte)
  /-- `ARG0 v`, v a signed decimal. -/
  | arg0 (v : Int)
  /-- `ARG1 v`. -/
  | arg1 (v : Int)
  /-- `<MNEMONIC> [imm]`: the CMD write, then STATUS reads until bit 0 is 0. -/
  | command (i : Instr) (polls : Nat)
  deriving DecidableEq, Repr

/-- ByteWrites of consecutive bytes from index `i` on. -/
def writeBytes (S : ByteSpace) : Nat → List Byte → List Event
  | _, [] => []
  | i, b :: rest => .host (.byteWrite S i b) :: writeBytes S (i + 1) rest

/-- The host actions of a line (R104). -/
def Line.events : Line → List Event
  | .file bytes => writeBytes .fmem 0 bytes ++ [.host (.regWrite 0x10 (BitVec.ofNat 32 bytes.length))]
  | .fbyte i b => [.host (.byteWrite .fmem i b)]
  | .flen n => [.host (.regWrite 0x10 n)]
  | .pixw i bytes => writeBytes .pix i bytes
  | .palw i bytes => writeBytes .pal i bytes
  | .arg0 v => [.host (.regWrite 0x04 (BitVec.ofInt 32 v))]
  | .arg1 v => [.host (.regWrite 0x08 (BitVec.ofInt 32 v))]
  | .command i polls =>
    .host (.regWrite 0x00 (encode i)) :: (List.replicate polls (.host (.regRead 0x0C)) ++ [.sequencer, .host (.regRead 0x0C)])

/-- The host actions of a program: its lines, top to bottom (R104, R270). -/
def programEvents (p : List Line) : List Event := p.flatMap Line.events

/-- `LOAD d <bytes>` for the DECODE command of the depth (R105, R274); `polls` as in `Line` (log entry 16). -/
def loadLines (decodeCmd : Instr) (bytes : List Byte) (polls : Nat) : List Line := [.file bytes, .command decodeCmd polls]

/-- `SAVE` (R105, R274): ENCODE, then the host reads FLEN and the `n` file bytes, `n` being the FLEN it read; `polls` as in
`Line` (log entry 16). -/
def saveEvents (n polls : Nat) : List Event :=
  (Line.command .encode polls).events ++ .host (.regRead 0x10) :: (List.range n).map (fun i => .host (.byteRead .fmem i))

/-- `META` (R105, R186). -/
def metaEvents : List Event := [0x80, 0x84, 0x88, 0x90].map (fun a => .host (.regRead a))

/-- `BRIGHT v` as one line (R105); `polls` as in `Line` (log entry 16). -/
def brightLines (v : Int) (polls : Nat) : List Line := [.arg0 v, .command .bright polls]

/-- `THRESH v` as one line (R105); `polls` as in `Line` (log entry 16). -/
def threshLines (v : Int) (polls : Nat) : List Line := [.arg0 v, .command .thresh polls]

/-- `ALLOC d, w, h` (R105, R274); `polls` as in `Line` (log entry 16). -/
def allocLines (d : Nat) (w h : Int) (polls : Nat) : List Line := [.arg0 w, .arg1 h, .command (.alloc d) polls]

end Sys2Proof.Machine
end

