-- ==== Sys2Proof/Tests/Slice0.lean ====
section
/-! SUPPORT. The model's own tests: words written out from spec/30_encoding.md R90 and R100, one-step results taken from
spec/95_test_vectors.md (each test names its vector), and for every statement with hypotheses one witness that meets them
together (`witness_…`), with a witness at a boundary for each clause of a statement of several clauses. -/

namespace Sys2Proof.Tests

/-! The theorems are elaborated one after another: their kernel evaluations together would need more threads than fit. -/

set_option Elab.async false


open Sys2Proof Sys2Proof.Machine

/-! ### Small states -/

/-- Consecutive bytes of a memory from index `a` on. -/
def cells : Nat → List Nat → Memory 8
  | _, [] => []
  | a, b :: rest => (a, BitVec.ofNat 8 b) :: cells (a + 1) rest

/-- Idle after reset with the given capacities. -/
def idleWith (fileCap pixCap : Nat) : State := State.resetWith { fileCap, pixCap } 0 []

/-- Idle after reset, FILE_CAP = PIX_CAP = 4096. -/
def idle : State := idleWith 4096 4096

/-- A valid image of depth `d` with the header ALLOC builds, and the given leading pixel bytes. -/
def image (d : Nat) (w h : Int) (px : List Nat) : State :=
  { idle with valid := true, hdr := allocHeader (BitVec.ofInt 32 w) (BitVec.ofInt 32 h) d, pix := cells 0 px }

/-- A file in FMEM with its length in FLEN. -/
def withFile (bytes : List Nat) : State := { idle with flen := BitVec.ofNat 32 bytes.length, fmem := cells 0 bytes }

/-- ARG0 as a signed number. -/
def arg0 (v : Int) (s : State) : State := { s with arg0 := BitVec.ofInt 32 v }

/-- A waiting command word. -/
def waiting (w : Word) (s : State) : State := { s with cmd := w, busy := true }

/-- The host's next action. -/
def hostDoes (t : Txn) (s : State) : State := { s with inbox := [.host t] }

/-- The state an outcome leads to; `idle` if it leads to none. -/
def nextOf : Host.Outcome State Fault Refusal → State
  | .next t => t
  | .fault _ => idle
  | .refused _ => idle

/-- The state after a command. -/
def after (i : Instr) (s : State) : State := nextOf (exec i s)

/-- The first `n` pixel bytes. -/
def pixels (n : Nat) (s : State) : List Nat := (List.range n).map (fun i => (s.readByte .pix i).toNat)

/-- `n` bytes of FMEM from `a` on. -/
def file (a n : Nat) (s : State) : List Nat := (List.range n).map (fun i => (s.readByte .fmem (a + i)).toNat)

/-- Every command ends in a next state, the one `after` names. -/
theorem exec_after (i : Instr) (s : State) : exec i s = .next (after i s) := by
  rcases exec_cases i s with ⟨k, -, h⟩ | ⟨-, h⟩ <;> simp only [after, h, nextOf]

/-- The 70-byte file of V10. -/
def fileV10 : List Nat :=
  [0x42, 0x4D, 0x46, 0x00, 0x00, 0x00, 0x00, 0x00, 0x00, 0x00, 0x36, 0x00, 0x00, 0x00, 0x28, 0x00] ++
  [0x00, 0x00, 0x02, 0x00, 0x00, 0x00, 0x02, 0x00, 0x00, 0x00, 0x01, 0x00, 0x18, 0x00, 0x00, 0x00] ++
  [0x00, 0x00, 0x10, 0x00, 0x00, 0x00, 0x13, 0x0B, 0x00, 0x00, 0x13, 0x0B, 0x00, 0x00, 0x00, 0x00] ++
  [0x00, 0x00, 0x00, 0x00, 0x00, 0x00, 0x5A, 0x50, 0x46, 0x78, 0x6E, 0x64, 0x00, 0x00, 0x1E, 0x14] ++
  [0x0A, 0x3C, 0x32, 0x28, 0x00, 0x00]

/-- Bytes 0 to 53 of the file of V20. -/
def headV20 : List Nat :=
  [0x42, 0x4D, 0x3E, 0x04, 0x00, 0x00, 0x00, 0x00, 0x00, 0x00, 0x36, 0x04, 0x00, 0x00, 0x28, 0x00] ++
  [0x00, 0x00, 0x03, 0x00, 0x00, 0x00, 0x02, 0x00, 0x00, 0x00, 0x01, 0x00, 0x08, 0x00, 0x00, 0x00] ++
  [0x00, 0x00, 0x08, 0x00, 0x00, 0x00, 0x00, 0x00, 0x00, 0x00, 0x00, 0x00, 0x00, 0x00, 0x00, 0x01] ++
  [0x00, 0x00, 0x00, 0x00, 0x00, 0x00]

/-- The file of V20 in FMEM, its palette bytes left unwritten. -/
def stateV20 : State :=
  { idle with flen := 1086, fmem := cells 0 headV20 ++ cells 1078 [0x28, 0x32, 0x3C, 0x99, 0x0A, 0x14, 0x1E, 0x77] }

/-- The header of V10 after DECODE. -/
def headerV10 : Header :=
  { Header.zero with
    sig := 0x4D42, fsize := 70, doff := 54, ihsize := 40, width := 2, height := 2, planes := 1, bpp := 24, isize := 16,
    xres := 0xB13, yres := 0xB13 }

/-- The image of V11 after DECODE: top-down, sizes and offset 0. -/
def imageV11 : State :=
  { idle with
    valid := true, pix := cells 0 [0x0A, 0x14, 0x1E, 0x28, 0x32, 0x3C, 0x46, 0x50, 0x5A, 0x64, 0x6E, 0x78],
    hdr := { headerV10 with fsize := 0, doff := 0, isize := 0, height := 0xFFFFFFFE } }

/-- The depth-8 4×3 image of V62. -/
def imageV62 : State := image 8 4 3 [1, 2, 3, 4, 5, 60, 7, 8, 9, 10, 11, 120]

/-- A depth-24 3×3 image with (200, 200, 200) in the centre (V60). -/
def imageV60 : State := image 24 3 3 (List.replicate 12 0 ++ [200, 200, 200] ++ List.replicate 12 0)

/-! ### Well-formedness (one check: the ALLOC immediate) -/

theorem test_wellFormed_refuses_a_wide_alloc_immediate : (Instr.alloc 256).wellFormed = false := by decide

theorem test_wellFormed_accepts_the_widest_alloc_immediate : (Instr.alloc 255).wellFormed = true := by decide

/-! ### Decoding: words written bit by bit as ZERO, IMM8, OP (R90, R100, V1) -/

theorem test_decode_nop : decode 0b0000000000000000_00000000_00000000 = .ok .nop := by decide
theorem test_decode_decode8 : decode 0b0000000000000000_00001000_00000001 = .ok .decode8 := by decide
theorem test_decode_decode24 : decode 0b0000000000000000_00011000_00000001 = .ok .decode24 := by decide
theorem test_decode_encode : decode 0b0000000000000000_00000000_00000010 = .ok .encode := by decide
theorem test_decode_alloc : decode 0b0000000000000000_00011000_00000011 = .ok (.alloc 24) := by decide
theorem test_decode_alloc_other_depth : decode 0b0000000000000000_00010000_00000011 = .ok (.alloc 16) := by decide
theorem test_decode_free : decode 0b0000000000000000_00000000_00000100 = .ok .free := by decide
theorem test_decode_neg : decode 0b0000000000000000_00000000_00010000 = .ok .neg := by decide
theorem test_decode_bright : decode 0b0000000000000000_00000000_00010001 = .ok .bright := by decide
theorem test_decode_thresh : decode 0b0000000000000000_00000000_00010010 = .ok .thresh := by decide
theorem test_decode_gray : decode 0b0000000000000000_00000000_00010011 = .ok .gray := by decide
theorem test_decode_blur : decode 0b0000000000000000_00000000_00100000 = .ok .blur := by decide
theorem test_decode_gauss : decode 0b0000000000000000_00000000_00100001 = .ok .gauss := by decide
theorem test_decode_outline : decode 0b0000000000000000_00000000_00100010 = .ok .outline := by decide
theorem test_decode_emboss : decode 0b0000000000000000_00000000_00100011 = .ok .emboss := by decide
theorem test_decode_sharpen : decode 0b0000000000000000_00000000_00100100 = .ok .sharpen := by decide
theorem test_decode_equalize : decode 0b0000000000000000_00000000_00110000 = .ok .equalize := by decide

/-- V2: the illegal words, each with the clause of R101 that makes it illegal. -/
theorem test_decode_illegal_words :
    [0x00010010#32, 0x80000000#32, 0x00000110#32, 0x00000100#32, 0x00000005#32, 0x00000014#32, 0x00000025#32,
      0x00000031#32, 0x000000FF#32, 0x00001001#32, 0x00000001#32, 0x00002001#32].map decode
    = [.error .zeroField, .error .zeroField, .error .immediate, .error .immediate, .error .opcode, .error .opcode,
      .error .opcode, .error .opcode, .error .opcode, .error .depth, .error .depth, .error .depth] := by decide

theorem test_decodeTableWord_reads_the_low_bits :
    decodeTableWord 32 0x00001801 = some .decode24 ∧ decodeTableWord 16 0x0803 = some (.alloc 8) ∧
      decodeTableWord 32 0x00010010 = none := by decide

/-! ### One step of each command -/

/-- V44: NOP after a failed command clears the error and nothing else. -/
theorem test_nop_clears_the_error : after .nop { idle with err := .format, busy := true } = idle := by decide +kernel

/-- V10. -/
theorem test_decode24_reads_a_bottom_up_file :
    (after .decode24 (withFile fileV10)).hdr = headerV10 ∧ (after .decode24 (withFile fileV10)).status = 0x02 ∧
      pixels 12 (after .decode24 (withFile fileV10))
        = [0x0A, 0x14, 0x1E, 0x28, 0x32, 0x3C, 0x46, 0x50, 0x5A, 0x64, 0x6E, 0x78] := by decide +kernel

/-- V14: an offset of 55 needs one byte more than the file has. -/
theorem test_decode24_counts_the_rows_from_the_declared_offset :
    (after .decode24 (withFile (fileV10.set 10 0x37))).err = .truncatedData := by decide +kernel

/-- V20. -/
theorem test_decode8_reads_the_index_bytes :
    (after .decode8 stateV20).status = 0x02 ∧ pixels 6 (after .decode8 stateV20) = [10, 20, 30, 40, 50, 60] := by
  decide +kernel

/-- V21: one byte short of the palette. -/
theorem test_decode8_needs_the_palette : (after .decode8 { stateV20 with flen := 1077 }).err = .truncatedData := by
  decide +kernel

/-- V13: a top-down image with stale sizes is written as the file of V10. -/
theorem test_encode_recomputes_and_reverses :
    (after .encode imageV11).flen = 70 ∧ file 0 70 (after .encode imageV11) = fileV10 := by decide +kernel

/-- V23. -/
theorem test_encode_needs_room_for_the_file :
    (after .encode { image 24 2 2 [] with caps := { fileCap := 69, pixCap := 4096 } }).err = .io := by decide +kernel

/-- V40. -/
theorem test_alloc_builds_the_header :
    (after (.alloc 24) { idle with arg0 := 2, arg1 := 2 }).hdr
      = { Header.zero with
          sig := 0x4D42, fsize := 0x46, doff := 0x36, ihsize := 0x28, width := 2, height := 2, planes := 1, bpp := 0x18,
          isize := 0x10 } ∧
    pixels 12 (after (.alloc 24) { idle with arg0 := 2, arg1 := 2 }) = List.replicate 12 0 := by decide +kernel

/-- V3: another depth is a failing command, not an illegal word. -/
theorem test_alloc_refuses_another_depth : (after (.alloc 16) { idle with arg0 := 1, arg1 := 1 }).err = .allocation := by
  decide +kernel

/-- V44. -/
theorem test_free_clears_valid : (after .free (image 24 2 2 [1, 2, 3])).status = 0x00 := by decide +kernel

/-- V50. -/
theorem test_neg_complements : pixels 3 (after .neg (image 8 3 1 [0, 128, 255])) = [255, 127, 0] := by decide +kernel

/-- V51: both ends saturate. -/
theorem test_bright_saturates :
    pixels 2 (after .bright (arg0 20 (image 8 2 1 [250, 5]))) = [255, 25] ∧
      pixels 2 (after .bright (arg0 (-20) (image 8 2 1 [250, 5]))) = [230, 0] := by decide +kernel

/-- V55: t is not clamped on the depth-8 path. -/
theorem test_thresh_depth8_is_unclamped :
    pixels 3 (after .thresh (arg0 256 (image 8 3 1 [0, 254, 255]))) = [0, 0, 0] := by decide +kernel

/-- V56: t is clamped on the depth-24 path. -/
theorem test_thresh_depth24_is_clamped :
    pixels 9 (after .thresh (arg0 300 (image 24 3 1 [255, 255, 255, 255, 255, 254, 0, 0, 0])))
      = [255, 255, 255, 0, 0, 0, 0, 0, 0] := by decide +kernel

/-- V57. -/
theorem test_gray_truncates : pixels 6 (after .gray (image 24 2 1 [10, 20, 31, 0, 0, 2])) = [20, 20, 20, 0, 0, 0] := by
  decide +kernel

/-- V62: read from the image before the command, (1,2) would be 20 in place. -/
theorem test_blur_reads_the_snapshot :
    pixels 12 (after .blur imageV62) = [1, 2, 3, 4, 5, 12, 25, 8, 9, 10, 11, 120] := by decide +kernel

/-- V60. -/
theorem test_blur_depth24 :
    pixels 27 (after .blur imageV60) = List.replicate 12 0 ++ [22, 22, 22] ++ List.replicate 12 0 := by decide +kernel

/-- V62: both sums are ties. -/
theorem test_gauss_rounds_ties_up :
    pixels 12 (after .gauss imageV62) = [1, 2, 3, 4, 5, 20, 21, 8, 9, 10, 11, 120] := by decide +kernel

/-- V64. -/
theorem test_outline_clamps_below :
    pixels 9 (after .outline (image 8 3 3 [10, 10, 10, 10, 0, 10, 10, 10, 10])) = [10, 10, 10, 10, 0, 10, 10, 10, 10] := by
  decide +kernel

/-- V63: the kernel is not mirrored. -/
theorem test_emboss_orientation :
    pixels 9 (after .emboss (image 8 3 3 [0, 0, 0, 0, 0, 0, 0, 0, 50])) = [0, 0, 0, 0, 228, 0, 0, 0, 50] ∧
      pixels 9 (after .emboss (image 8 3 3 [50, 0, 0, 0, 0, 0, 0, 0, 0])) = [50, 0, 0, 0, 28, 0, 0, 0, 0] := by
  decide +kernel

/-- V64: both ends clamp. -/
theorem test_sharpen_clamps :
    pixels 9 (after .sharpen (image 8 3 3 [7, 50, 9, 50, 100, 50, 1, 50, 3])) = [7, 50, 9, 50, 255, 50, 1, 50, 3] ∧
      pixels 9 (after .sharpen (image 8 3 3 [7, 100, 9, 100, 50, 100, 1, 100, 3])) = [7, 100, 9, 100, 0, 100, 1, 100, 3] := by
  decide +kernel

/-- V80. -/
theorem test_equalize_depth8 : pixels 4 (after .equalize (image 8 2 2 [10, 10, 20, 30])) = [128, 128, 191, 255] := by
  decide +kernel

/-- V86: a flat colour moves by 1. -/
theorem test_equalize_depth24_moves_a_flat_colour : pixels 3 (after .equalize (image 24 1 1 [0, 0, 250])) = [1, 0, 250] := by
  decide +kernel

/-! ### The rest of the machine -/

/-- 30_encoding.md R104: the actions of two host-program lines. -/
theorem test_host_program_lines :
    programEvents [.arg0 (-20), .command .bright 1]
      = [.host (.regWrite 0x04 0xFFFFFFEC), .host (.regWrite 0x00 0x00000011), .host (.regRead 0x0C), .sequencer,
        .host (.regRead 0x0C)] := by decide

/-- V4: STATUS after NEG without an image. -/
theorem test_status_of_an_illegal_command : (after .neg idle).status = 0x70 := by decide +kernel

/-- V11: the metadata registers of a top-down image. -/
theorem test_metadata_registers :
    [0x80, 0x84, 0x88, 0x8C, 0x90].map imageV11.regRead = [2, 2, 24, 8, 16] := by decide +kernel

/-- One step of the machine runs the word in CMD. -/
theorem test_step_runs_the_word : pixels 3 (nextOf (step ((image 8 3 1 [0, 128, 255]).withFetchWord 32 0x10))) = [255, 127, 0] := by
  decide +kernel

/-! ### Witnesses: encoding and the sequencer -/

theorem witness_DecodeOfEncodeIsTheCommand : (Instr.alloc 0).wellFormed = true ∧ (Instr.alloc 255).wellFormed = true := by
  decide

theorem witness_LegalWordsAreEncodedCommands :
    decode 0x00000803 = .ok (.alloc 8) ∧ decode 0x0000FF03 = .ok (.alloc 255) := by decide

/-- Boundary words of each clause of R101, an illegal word waiting with an empty inbox and with the sequencer's turn next,
and ALLOC words just off the two depths. -/
theorem witness_IllegalWordsAreExactlyTheReservedOnes :
    [0x00010000#32, 0x00000006#32, 0x00000110#32, 0x00000701#32, 0x00001901#32].map decode
        = [.error .zeroField, .error .opcode, .error .immediate, .error .depth, .error .depth] ∧
      ((waiting 0x00000005 idle).busy = true ∧ (waiting 0x00000005 idle).inbox = [] ∧
        decode (waiting 0x00000005 idle).cmd = .error .opcode) ∧
      ((idle.withCommand 0x00000005).busy = true ∧ (idle.withCommand 0x00000005).inbox = [.sequencer] ∧
        decode (idle.withCommand 0x00000005).cmd = .error .opcode) ∧
      ∀ n ∈ [0x00000003, 0x00000703, 0x00000903, 0x0000FF03],
        (BitVec.ofNat 32 n).toNat / 65536 = 0 ∧ (BitVec.ofNat 32 n).toNat % 256 = 0x03 ∧
          (BitVec.ofNat 32 n).toNat / 256 % 256 ∉ [8, 24] := by decide +kernel

/-- With an empty inbox, with the sequencer's turn next, and the greatest legal command word. -/
theorem witness_StepRunsTheDecodedCommand :
    ((waiting 0x10 idle).busy = true ∧ (waiting 0x10 idle).inbox = [] ∧ decode (waiting 0x10 idle).cmd = .ok .neg) ∧
      ((idle.withCommand 0x10).busy = true ∧ (idle.withCommand 0x10).inbox = [.sequencer] ∧
        decode (idle.withCommand 0x10).cmd = .ok .neg) ∧
      (0xFF03 < 2 ^ 32 ∧ decode (BitVec.ofNat 32 0xFF03) = .ok (.alloc 255)) := by decide +kernel

theorem witness_CommandWriteSetsBusyAndIdleBlockWaits :
    ((hostDoes (.regWrite 0x00 0x10) idle).busy = false ∧
        (hostDoes (.regWrite 0x00 0x10) idle).inbox = [.host (.regWrite 0x00 0x10)]) ∧
      (idle.busy = false ∧ idle.inbox = []) := by decide +kernel

/-- A command that ends in an error, and one that does not. -/
theorem witness_EveryCommandEndsAndErrorsChangeNothing :
    (exec .neg idle = .next (after .neg idle) ∧ (after .neg idle).err ≠ .ok) ∧
      (exec .nop idle = .next (after .nop idle) ∧ (after .nop idle).err = .ok) :=
  ⟨⟨exec_after _ _, by decide +kernel⟩, ⟨exec_after _ _, by decide +kernel⟩⟩

/-- EQUALIZE meets the clauses on FMEM and on the header, ENCODE the others. -/
theorem witness_CommandsWriteOnlyTheirOwnState :
    exec .equalize (image 8 1 1 [7]) = .next (after .equalize (image 8 1 1 [7])) ∧
      (Instr.equalize ≠ .encode ∧ Instr.equalize ≠ .decode8 ∧ Instr.equalize ≠ .decode24 ∧ Instr.equalize ≠ .free ∧
        ∀ d, Instr.equalize ≠ .alloc d) ∧
      exec .encode imageV11 = .next (after .encode imageV11) ∧ Instr.encode ≠ .equalize ∧
      Instr.encode ∈ [Instr.nop, .free, .encode] :=
  ⟨exec_after _ _, ⟨nofun, nofun, nofun, nofun, nofun⟩, exec_after _ _, nofun, by decide⟩

/-- One command ending in each error kind. -/
theorem witness_ErrorsHaveOnlyTheListedCauses :
    (after .decode24 (withFile (fileV10.take 53))).err = .format ∧
      (after .decode8 (withFile fileV10)).err = .unsupportedFormat ∧
      (after .decode24 (withFile (fileV10.take 69))).err = .truncatedData ∧
      (after .decode24 { withFile fileV10 with caps := { fileCap := 4096, pixCap := 11 } }).err = .allocation ∧
      (after (.alloc 16) { idle with arg0 := 1, arg1 := 1 }).err = .allocation ∧
      (after .encode { image 24 2 2 [] with caps := { fileCap := 69, pixCap := 4096 } }).err = .io ∧
      (after .blur (image 8 2 3 [])).err = .size ∧ (after .gray (image 8 1 1 [])).err = .illegalCommand ∧
      (after .encode idle).err = .illegalCommand := by decide +kernel

theorem witness_CommonChecksFailWithIllegalCommand :
    ((waiting 0x00010010 idle).busy = true ∧ (waiting 0x00010010 idle).inbox = [] ∧
        decode (waiting 0x00010010 idle).cmd = .error .zeroField) ∧
      ((idle.withCommand 0x00010010).busy = true ∧ (idle.withCommand 0x00010010).inbox = [.sequencer] ∧
        decode (idle.withCommand 0x00010010).cmd = .error .zeroField) ∧
      (Instr.equalize ∈ [.encode, .neg, .bright, .thresh, .gray, .blur, .gauss, .outline, .emboss, .sharpen, .equalize] ∧
        idle.valid = false) ∧ (image 8 1 1 []).hdr.depth = 8 := by decide +kernel

/-! ### Witnesses: the pixel store -/

/-- The NOP word, and words with OP = 0 and another bit set, with an empty inbox and with the sequencer's turn next. -/
theorem witness_NopOnlyClearsTheError :
    ∀ n ∈ [0x00000000, 0x00000100, 0x80000000],
      let s := waiting (BitVec.ofNat 32 n) idle
      let s' := idle.withCommand (BitVec.ofNat 32 n)
      (s.busy = true ∧ s.inbox = [] ∧ s.cmd.toNat % 256 = 0) ∧
        s'.busy = true ∧ s'.inbox = [.sequencer] ∧ s'.cmd.toNat % 256 = 0 := by decide +kernel

theorem witness_FreeReleasesTheImage :
    exec .free (image 24 1 1 []) = .next (after .free (image 24 1 1 [])) ∧
      Instr.neg ∈ [.encode, .neg, .bright, .thresh, .gray, .blur, .gauss, .outline, .emboss, .sharpen, .equalize] :=
  ⟨exec_after _ _, by decide⟩

/-- V43: exactly PIX_CAP bytes at depth 8, and the greatest image of width 36 at depth 24 (V43); a negative height (V41). -/
theorem witness_AllocBuildsTheImage :
    ∀ c ∈ [(8, 64, (64 : Int)), (24, 36, 37), (24, 2, -2)],
      let s : State := { idle with arg0 := BitVec.ofNat 32 c.2.1, arg1 := BitVec.ofInt 32 c.2.2 }
      (c.1 = 8 ∨ c.1 = 24) ∧ 0 < s32 s.arg0 ∧ s32 s.arg1 ≠ 0 ∧
        (s32 s.arg0).toNat * (s32 s.arg1).natAbs * (c.1 / 8) ≤ s.caps.pixCap := by decide +kernel

/-- V43: each cause alone, at its boundary. -/
theorem witness_AllocRejectsBadOperands :
    s32 ({ idle with arg0 := 0, arg1 := 1 } : State).arg0 ≤ 0 ∧ s32 ({ idle with arg0 := 1, arg1 := 0 } : State).arg1 = 0 ∧
      ((16 : Nat) ≠ 8 ∧ (16 : Nat) ≠ 24) ∧
      (s32 ({ idle with arg0 := 37, arg1 := 37 } : State).arg0).toNat * (s32 (37 : Word)).natAbs * (24 / 8)
        > idle.caps.pixCap := by decide +kernel

/-! ### Witnesses: DECODE -/

/-- The file of V10 is accepted at depth 24, that of V20 at depth 8. -/
theorem accepted_V10 : (withFile fileV10).fileAccepted 24 := by decide +kernel

theorem accepted_V20 : stateV20.fileAccepted 8 := by decide +kernel

/-- Six files, each meeting the premises of one clause: length 53, signature BN, planes 2, capacity 11, length 69, and the
file of V10 itself. -/
theorem witness_DecodeReportsTheFirstFailingCheck :
    (withFile (fileV10.take 53)).fileLen < 54 ∧
      (¬(withFile (fileV10.set 1 0x4E)).fileLen < 54 ∧ (withFile (fileV10.set 1 0x4E)).readByte .fmem 1 ≠ 0x4D) ∧
      (∀ s ∈ [withFile (fileV10.set 26 2), { withFile fileV10 with caps := { fileCap := 4096, pixCap := 11 } },
          withFile (fileV10.take 69), withFile fileV10],
        ¬s.fileLen < 54 ∧ s.readByte .fmem 0 = 0x42 ∧ s.readByte .fmem 1 = 0x4D) ∧
      u16le ((withFile (fileV10.set 26 2)).readByte .fmem) 26 ≠ 1 ∧
      (∀ s ∈ [{ withFile fileV10 with caps := { fileCap := 4096, pixCap := 11 } }, withFile (fileV10.take 69), withFile fileV10],
        u16le (s.readByte .fmem) 26 = 1 ∧ u16le (s.readByte .fmem) 28 = 24 ∧ u32le (s.readByte .fmem) 30 = 0 ∧
          u32le (s.readByte .fmem) 18 = 2 ∧ u32le (s.readByte .fmem) 22 = 2 ∧ u32le (s.readByte .fmem) 10 = 54) ∧
      (2 * 2 * 3 > 11 ∧ 54 + 8 * 2 > (withFile (fileV10.take 69)).fileLen ∧ ¬2 * 2 * 3 > 4096 ∧
        ¬54 + 8 * 2 > (withFile fileV10).fileLen) := by decide +kernel

theorem witness_DecodeCommitsTheSixteenFields :
    ((Instr.decode24 = .decode24 ∧ 24 = 24) ∧ (withFile fileV10).fileAccepted 24) ∧
      (Instr.decode8 = .decode8 ∧ 8 = 8) ∧ stateV20.fileAccepted 8 :=
  ⟨⟨⟨rfl, rfl⟩, accepted_V10⟩, ⟨rfl, rfl⟩, accepted_V20⟩

/-- Both depths, a positive height here and a negative one (V11), with the last row, column and the first byte beyond
the image. -/
theorem witness_DecodeCopiesRowsInCanonicalOrder :
    ((withFile fileV10).fileAccepted 24 ∧ 1 < (withFile fileV10).fileHeader.rows ∧ 1 < (withFile fileV10).fileHeader.w ∧
        2 * 2 * (24 / 8) ≤ 12) ∧
      (stateV20.fileAccepted 8 ∧ 1 < stateV20.fileHeader.rows ∧ 2 < stateV20.fileHeader.w) ∧
      (withFile (((fileV10.set 22 0xFE).set 23 0xFF).set 24 0xFF |>.set 25 0xFF)).fileAccepted 24 ∧
      s32 (withFile (((fileV10.set 22 0xFE).set 23 0xFF).set 24 0xFF |>.set 25 0xFF)).fileHeader.height = -2 := by
  decide +kernel

theorem witness_DecodeCopiesThePaletteAndKeepsTheFile :
    stateV20.fileAccepted 8 ∧ 1023 < 1024 ∧ (withFile fileV10).fileAccepted 24 := ⟨accepted_V20, by decide, accepted_V10⟩

/-- V11's remark: the two padding bytes of each row (offsets 60, 61, 68, 69) may differ. -/
theorem witness_DecodeIgnoresPaddingBytes :
    let s := withFile fileV10
    let s' : State := { s with fmem := cells 0 ((((fileV10.set 60 0xAA).set 61 0xBB).set 68 0xCC).set 69 0xDD) }
    s'.fmem ≠ s.fmem ∧ (∀ k, k < canonOf 24 → s'.readByte .fmem k = s.readByte .fmem k) ∧
      s.fileHeader.rows = 2 ∧ (s32 s.fileHeader.width).toNat * (24 / 8) = 6 ∧ strideOf (s32 s.fileHeader.width).toNat (24 / 8) = 8 ∧
      dataOffset s.fileHeader 24 = 54 ∧
      ∀ r, r < 2 → ∀ j, j < 6 → s'.readByte .fmem (54 + r * 8 + j) = s.readByte .fmem (54 + r * 8 + j) := by decide +kernel

/-! ### Witnesses: ENCODE -/

/-- An image that fits exactly: 70 bytes in an FMEM of 70, in a state that meets the invariant. -/
def fits24 : State := { image 24 2 2 [1, 2, 3] with caps := { fileCap := 70, pixCap := 12 } }

/-- The depth-8 counterpart: 1078 + 4 bytes. -/
def fits8 : State := { image 8 1 1 [9] with caps := { fileCap := 1082, pixCap := 1 } }

theorem fits24_meets : fits24.Inv ∧ fits24.valid = true ∧
    fits24.hdr.canon + fits24.hdr.stride * fits24.hdr.rows ≤ fits24.caps.fileCap := by decide +kernel

theorem fits8_meets : fits8.Inv ∧ fits8.valid = true ∧
    fits8.hdr.canon + fits8.hdr.stride * fits8.hdr.rows ≤ fits8.caps.fileCap := by decide +kernel

theorem witness_EncodeEmitsTheRecomputedHeader :
    ∀ s ∈ [fits24, fits8], s.Inv ∧ s.valid = true ∧ s.hdr.canon + s.hdr.stride * s.hdr.rows ≤ s.caps.fileCap := by
  decide +kernel

/-- The last row and column, the first padding byte, and the last palette byte. -/
theorem witness_EncodeEmitsRowsBottomUp :
    (fits24.Inv ∧ fits24.valid = true ∧ fits24.hdr.canon + fits24.hdr.stride * fits24.hdr.rows ≤ fits24.caps.fileCap ∧
        fits24.hdr.depth = 24 ∧ 1 < fits24.hdr.rows ∧ 1 < fits24.hdr.w ∧ fits24.hdr.w * fits24.hdr.bppb ≤ 6 ∧
        6 < fits24.hdr.stride) ∧
      (fits8.Inv ∧ fits8.valid = true ∧ fits8.hdr.canon + fits8.hdr.stride * fits8.hdr.rows ≤ fits8.caps.fileCap) ∧
      fits8.hdr.depth = 8 ∧ 1023 < 1024 :=
  ⟨⟨fits24_meets.1, fits24_meets.2.1, fits24_meets.2.2, by decide +kernel⟩, fits8_meets, by decide +kernel⟩

theorem witness_EncodeSetsTheLengthAndKeepsTheImage :
    capsOk fits24.caps ∧ fits24.valid = true ∧
      fits24.hdr.canon + fits24.hdr.stride * fits24.hdr.rows ≤ fits24.caps.fileCap ∧
      fits24.hdr.canon + fits24.hdr.stride * fits24.hdr.rows ≤ 70 := by decide +kernel

/-- V23: one byte too few. -/
theorem witness_EncodeRejectsFilesLargerThanFmem :
    ({ fits24 with caps := { fileCap := 69, pixCap := 12 } } : State).valid = true ∧
      fits24.hdr.canon + fits24.hdr.stride * fits24.hdr.rows > 69 := by decide +kernel

/-- Both depths, the last pixel byte and the last palette byte. -/
theorem witness_DecodeAfterEncodeRestoresTheImage :
    (∀ s ∈ [fits24, fits8], s.Inv ∧ s.valid = true ∧ s.hdr.canon + s.hdr.stride * s.hdr.rows ≤ s.caps.fileCap) ∧
      11 < fits24.hdr.nbytes ∧ fits8.hdr.depth = 8 ∧ 1023 < 1024 := by decide +kernel

theorem witness_EncodeTwiceGivesTheSameFile :
    fits24.valid = true ∧ fits24.hdr.canon + fits24.hdr.stride * fits24.hdr.rows ≤ fits24.caps.fileCap := by decide +kernel

/-! ### Witnesses: the pointwise transforms -/

/-- With and without an image, and an index on each side of NBYTES. -/
theorem witness_NegComplementsEveryByteAndIsAnInvolution :
    idle.valid = false ∧ (image 24 2 2 []).valid = true ∧ 11 < (image 24 2 2 []).hdr.nbytes ∧
      (image 24 2 2 []).hdr.nbytes ≤ 12 := by decide +kernel

/-- With and without an image, and an index on each side of NBYTES; the least and the greatest operand (V51). -/
theorem witness_BrightAddsAndSaturates :
    idle.valid = false ∧ (image 8 2 1 []).valid = true ∧ 1 < (image 8 2 1 []).hdr.nbytes ∧ (image 8 2 1 []).hdr.nbytes ≤ 2 ∧
      s32 0x80000000 = -2147483648 ∧ s32 0x7FFFFFFF = 2147483647 := by decide +kernel

/-- Both depths, the last pixel and the first byte beyond the image. -/
theorem witness_ThreshComparesWithTheOperand :
    idle.valid = false ∧
      ((image 8 3 1 []).valid = true ∧ (image 8 3 1 []).hdr.depth = 8 ∧ 2 < (image 8 3 1 []).hdr.npix ∧
        (image 8 3 1 []).hdr.npix ≤ 3) ∧
      (image 24 3 1 []).valid = true ∧ (image 24 3 1 []).hdr.depth = 24 ∧ 2 < (image 24 3 1 []).hdr.npix ∧
      3 * (image 24 3 1 []).hdr.npix ≤ 9 := by decide +kernel

/-- No image; a depth-8 image; a depth-24 image with its last pixel and the first byte beyond it. -/
theorem witness_GrayReplacesChannelsByTheirMean :
    idle.valid = false ∧ (image 8 1 1 []).hdr.depth = 8 ∧ (image 24 1 1 []).valid = true ∧ (image 24 1 1 []).hdr.depth = 24 ∧
      0 < (image 24 1 1 []).hdr.npix ∧ 3 * (image 24 1 1 []).hdr.npix ≤ 3 := by decide +kernel

/-- A depth-24 image; both ends of the operand's range. -/
theorem witness_GrayAndThreshAreIdempotent :
    ((image 24 1 1 []).valid = true ∧ (image 24 1 1 []).hdr.depth ≠ 8) ∧
      ∀ v ∈ [(1 : Int), 255], (arg0 v (image 8 1 1 [])).valid = true ∧ 1 ≤ s32 (arg0 v (image 8 1 1 [])).arg0 ∧
        s32 (arg0 v (image 8 1 1 [])).arg0 ≤ 255 := by decide +kernel

/-! ### Witnesses: the convolutions -/

/-- V67: a side of 2 on either axis. -/
theorem witness_FiltersRejectImagesUnderThreeByThree :
    Instr.blur ∈ [.blur, .gauss, .outline, .emboss, .sharpen] ∧ ((image 8 2 3 []).valid = true ∧ (image 8 2 3 []).hdr.w < 3) ∧
      (image 8 3 (-2) []).valid = true ∧ (image 8 3 (-2) []).hdr.rows < 3 := by decide +kernel

/-- The least image a filter accepts, with its one interior pixel and its last channel. -/
theorem filterable : imageV60.valid = true ∧ 3 ≤ imageV60.hdr.w ∧ 3 ≤ imageV60.hdr.rows ∧ imageV60.hdr.isInterior 1 1 ∧
    2 < imageV60.hdr.bppb := by decide +kernel

theorem witness_BlurAveragesTheNeighbourhood : imageV60.valid = true ∧ 3 ≤ imageV60.hdr.w ∧ 3 ≤ imageV60.hdr.rows ∧
    imageV60.hdr.isInterior 1 1 ∧ 2 < imageV60.hdr.bppb := filterable

theorem witness_GaussWeightsTheNeighbourhood : imageV60.valid = true ∧ 3 ≤ imageV60.hdr.w ∧ 3 ≤ imageV60.hdr.rows ∧
    imageV60.hdr.isInterior 1 1 ∧ 2 < imageV60.hdr.bppb := filterable

theorem witness_OutlineSubtractsTheNeighbours : imageV60.valid = true ∧ 3 ≤ imageV60.hdr.w ∧ 3 ≤ imageV60.hdr.rows ∧
    imageV60.hdr.isInterior 1 1 ∧ 2 < imageV60.hdr.bppb := filterable

theorem witness_EmbossIsOrientedAndBiased : imageV60.valid = true ∧ 3 ≤ imageV60.hdr.w ∧ 3 ≤ imageV60.hdr.rows ∧
    imageV60.hdr.isInterior 1 1 ∧ 2 < imageV60.hdr.bppb := filterable

theorem witness_SharpenSubtractsTheEdgeNeighbours : imageV60.valid = true ∧ 3 ≤ imageV60.hdr.w ∧ 3 ≤ imageV60.hdr.rows ∧
    imageV60.hdr.isInterior 1 1 ∧ 2 < imageV60.hdr.bppb := filterable

/-- The last pixel of the image is a border pixel; the first byte beyond the image. -/
theorem witness_FiltersKeepTheBorder :
    exec .emboss imageV60 = .next (after .emboss imageV60) ∧ Instr.emboss ∈ [.blur, .gauss, .outline, .emboss, .sharpen] ∧
      2 < imageV60.hdr.rows ∧ 2 < imageV60.hdr.w ∧ 2 < imageV60.hdr.bppb ∧ ¬imageV60.hdr.isInterior 2 2 ∧
      imageV60.hdr.nbytes ≤ 27 :=
  ⟨exec_after _ _, by decide +kernel⟩

/-- A flat 3×3 image of value 255. -/
theorem witness_FiltersOnFlatImages :
    let s := image 8 3 3 (List.replicate 9 255)
    s.valid = true ∧ 3 ≤ s.hdr.w ∧ 3 ≤ s.hdr.rows ∧ (∀ k, k < s.hdr.nbytes → (s.readByte .pix k).toNat = 255) ∧
      Instr.sharpen ∈ [Instr.blur, .gauss, .sharpen] ∧ s.hdr.isInterior 1 1 ∧ 0 < s.hdr.bppb := by decide +kernel

/-- Two 4×3 images that agree around (1, 1) and differ elsewhere. -/
theorem witness_FilterOutputsDependOnNineBytes :
    let s := imageV62
    let s' := image 8 4 3 [1, 2, 3, 77, 5, 60, 7, 77, 9, 10, 11, 77]
    (exec .gauss s = .next (after .gauss s) ∧ exec .gauss s' = .next (after .gauss s')) ∧
      Instr.gauss ∈ [.blur, .gauss, .outline, .emboss, .sharpen] ∧ s.valid = true ∧ s'.valid = true ∧ s'.hdr = s.hdr ∧
      s.hdr.isInterior 1 1 ∧ 0 < s.hdr.bppb ∧
      ∀ dy, dy < 3 → ∀ dx, dx < 3 → s'.px (1 + dy - 1) (1 + dx - 1) 0 = s.px (1 + dy - 1) (1 + dx - 1) 0 :=
  ⟨⟨exec_after _ _, exec_after _ _⟩, by decide +kernel⟩

/-! ### Witnesses: EQUALIZE -/

theorem witness_EqualizeTablesOfDepth8 :
    (image 8 2 2 [10, 10, 20, 30]).Inv ∧ (image 8 2 2 [10, 10, 20, 30]).valid = true ∧
      (image 8 2 2 [10, 10, 20, 30]).hdr.depth = 8 ∧ 255 < 256 := by decide +kernel

/-- V80: byte 3 is the largest. -/
theorem witness_EqualizeRemapsDepth8 :
    let s := image 8 2 2 [10, 10, 20, 30]
    s.Inv ∧ s.valid = true ∧ s.hdr.depth = 8 ∧ 3 < s.hdr.npix ∧
      ∀ j, j < s.hdr.npix → (s.readByte .pix j).toNat ≤ (s.readByte .pix 3).toNat := by decide +kernel

/-- V85 for the degenerate table, V87's first pixel's level 18 as the least level of an image of two levels. -/
theorem witness_EqualizeTablesOfDepth24 :
    let s := image 24 2 1 [10, 20, 30, 255, 255, 255]
    s.Inv ∧ s.valid = true ∧ s.hdr.depth = 24 ∧ 18 < 256 ∧ s.level 0 = 18 ∧ s.level 1 = 255 ∧ s.hdr.npix = 2 := by
  decide +kernel

theorem witness_EqualizeRecoloursDepth24 :
    (image 24 1 1 [0, 0, 250]).Inv ∧ (image 24 1 1 [0, 0, 250]).valid = true ∧ (image 24 1 1 [0, 0, 250]).hdr.depth = 24 ∧
      0 < (image 24 1 1 [0, 0, 250]).hdr.npix := by decide +kernel

/-- V85. -/
theorem witness_EqualizeKeepsAllGrayImages :
    let s := image 24 2 2 (List.replicate 12 90)
    s.Inv ∧ s.valid = true ∧ s.hdr.depth = 24 ∧ ∀ k, k < s.hdr.nbytes → s.readByte .pix k = 90 := by decide +kernel

theorem witness_CdfAccumulatesTheHistogram :
    ∀ s ∈ [image 8 2 2 [10, 10, 20, 30], image 24 1 1 [0, 0, 250]], s.Inv ∧ s.valid = true := by decide +kernel

theorem witness_EqualizeChangesPixelsAndTablesOnly :
    ∀ s ∈ [image 8 2 2 [10, 10, 20, 30], image 24 1 1 [0, 0, 250]], s.Inv ∧ s.valid = true ∧ s.hdr.nbytes ≤ 4 := by
  decide +kernel

/-! ### Witnesses: the host port, reset, arithmetic, the invariant -/

theorem witness_MetadataRegistersGiveTheGeometry : imageV11.Inv ∧ imageV11.valid = true := by decide +kernel

/-- A reserved and a read-only address, the three data registers, and the address after the last register. -/
theorem witness_RegisterWritesReachOnlyWritableRegisters :
    (∀ a ∈ [0x0C, 0x14, 0x40, 0x90], a ∉ [0x00, 0x04, 0x08, 0x10] ∧ (hostDoes (.regWrite a 7) idle).busy = false ∧
        (hostDoes (.regWrite a 7) idle).inbox = [.host (.regWrite a 7)]) ∧
      (∀ a ∈ [0x04, 0x08, 0x10], (hostDoes (.regWrite a 7) idle).busy = false ∧
        (hostDoes (.regWrite a 7) idle).inbox = [.host (.regWrite a 7)]) ∧
      ∀ a ∈ [0x01, 0x14, 0x3C, 0x94], a ∉ [0x00, 0x04, 0x08, 0x0C, 0x10, 0x40, 0x44, 0x48, 0x4C, 0x50, 0x54, 0x58, 0x5C,
        0x60, 0x64, 0x68, 0x6C, 0x70, 0x74, 0x78, 0x7C, 0x80, 0x84, 0x88, 0x8C, 0x90] := by decide +kernel

/-- The last index of a byte space and of a word space. -/
theorem witness_HostReadsHaveNoSideEffect :
    ((hostDoes (.regRead 0x90) idle).busy = false ∧ (hostDoes (.regRead 0x90) idle).inbox = [.host (.regRead 0x90)]) ∧
      ((hostDoes (.byteRead .pal 1023) idle).inbox = [.host (.byteRead .pal 1023)] ∧
        1023 < (hostDoes (.byteRead .pal 1023) idle).byteExtent .pal) ∧
      (hostDoes (.wordRead .cdf 255) idle).inbox = [.host (.wordRead .cdf 255)] ∧ 255 < 256 := by decide +kernel

/-- The last byte of each byte space and the last entry of each word space. -/
theorem witness_HostByteWritesSetOneByte :
    (∀ S ∈ [WordSpace.hist, .cdf], (hostDoes (.wordWrite S 255 7) idle).busy = false ∧ 255 < 256 ∧
      (hostDoes (.wordWrite S 255 7) idle).inbox = [.host (.wordWrite S 255 7)]) ∧
    ∀ c ∈ [(ByteSpace.fmem, 4095), (.pix, 4095), (.pal, 1023), (.lut, 255)],
      (hostDoes (.byteWrite c.1 c.2 7) idle).busy = false ∧
        c.2 < (hostDoes (.byteWrite c.1 c.2 7) idle).byteExtent c.1 ∧
        (hostDoes (.byteWrite c.1 c.2 7) idle).inbox = [.host (.byteWrite c.1 c.2 7)] := by decide +kernel

/-- The allowed transaction, and one that is not. -/
theorem witness_HostIsRefusedWhileBusy :
    (hostDoes (.regRead 0x0C) (waiting 0 idle)).busy = true ∧
      (hostDoes (.regRead 0x0C) (waiting 0 idle)).inbox = [.host (.regRead 0x0C)] ∧
      (hostDoes (.regRead 0x00) (waiting 0 idle)).busy = true ∧
      (hostDoes (.regRead 0x00) (waiting 0 idle)).inbox = [.host (.regRead 0x00)] ∧
      Txn.regRead 0x00 ≠ .regRead 0x0C := by decide +kernel

/-- The first index beyond each space. -/
theorem witness_IndicesOutsideASpaceAreRefused :
    (∀ c ∈ [(ByteSpace.fmem, 4096), (.pix, 4096), (.pal, 1024), (.lut, 256)],
        ((c.1 = .fmem ∧ c.2 = idle.caps.fileCap) ∨ (c.1 = .pix ∧ c.2 = idle.caps.pixCap) ∨ (c.1 = .pal ∧ c.2 = 1024) ∨
          (c.1 = .lut ∧ c.2 = 256)) ∧
        (hostDoes (.byteRead c.1 c.2) idle).busy = false ∧
        (hostDoes (.byteRead c.1 c.2) idle).inbox = [.host (.byteRead c.1 c.2)] ∧
        (hostDoes (.byteWrite c.1 c.2 1) idle).inbox = [.host (.byteWrite c.1 c.2 1)]) ∧
      256 ≤ 256 ∧ (hostDoes (.wordRead .hist 256) idle).inbox = [.host (.wordRead .hist 256)] ∧
      (hostDoes (.wordWrite .cdf 256 1) idle).inbox = [.host (.wordWrite .cdf 256 1)] := by decide +kernel

/-- A host about to read STATUS while a command runs, at a state where it keeps the rules. -/
theorem witness_OnlyUndefinedTransactionsStopTheMachine : (hostDoes (.regRead 0x0C) (waiting 0 idle)).hostKeepsRules := by
  intro t rest h
  have h : t = .regRead 0x0C ∧ rest = [] := by simpa [hostDoes, eq_comm] using h
  obtain ⟨rfl, -⟩ := h
  exact ⟨fun _ => rfl, rfl⟩

/-- Reset in the middle of a command, and a command that needs an image after it. -/
theorem witness_ResetClearsTheRegistersAndTheSlot :
    ({ waiting 0x30 imageV11 with inbox := [.rst] } : State).inbox = [.rst] ∧
      Instr.equalize ∈ [Instr.encode, .neg, .bright, .thresh, .gray, .blur, .gauss, .outline, .emboss, .sharpen, .equalize] := by
  decide +kernel

/-- A tie: 1/2. -/
theorem witness_RoundingIsNearestTiesAwayFromZero : (0 : Int) < 2 ∧ 2 * (rnd 1 2 * 2 - 1).natAbs = (2 : Int).natAbs := by decide

/-- The least and the greatest capacities of R7. -/
theorem witness_ResetSatisfiesTheInvariant :
    capsOk { fileCap := 1, pixCap := 1 } ∧ capsOk { fileCap := 2 ^ 32 - 1, pixCap := 2 ^ 32 - 1 } := by decide

/-- A state with an image and a waiting command, and the state it steps to. -/
theorem witness_EveryStepKeepsTheInvariant :
    (waiting 0x30 imageV11).Inv ∧ step (waiting 0x30 imageV11) = .next (after .equalize (waiting 0x30 imageV11)) :=
  ⟨by decide +kernel, by
    rw [step_of_empty rfl, sequencerTurn_of_busy rfl, runCmd_of_ok (i := .equalize) (by decide +kernel)]
    exact exec_after _ _⟩

end Sys2Proof.Tests
end

section
namespace Sys2Proof.Machine

/-! ### Rounding to the nearest integer (R9) -/

/-- A negative numerator is rounded as its mirror image. -/
theorem rnd_of_neg {n : Int} (h : n < 0) (d : Int) : rnd n d = -rnd (-n) d := by
  rw [rnd_of_nonneg (by omega : 0 ≤ -n), rnd, if_neg (by omega)]

/-- At a non-negative numerator the multiple lies in `(n - d/2, n + d/2]`, so a tie is rounded upwards. -/
theorem rnd_mul_bounds_of_nonneg {n d : Int} (hn : 0 ≤ n) (hd : 0 < d) :
    -d < 2 * (rnd n d * d - n) ∧ 2 * (rnd n d * d - n) ≤ d := by
  rw [rnd_of_nonneg hn]
  have hlow : (2 * n + d) / (2 * d) * (2 * d) ≤ 2 * n + d := Int.ediv_mul_le _ (by omega)
  have hhigh : 2 * n + d < ((2 * n + d) / (2 * d) + 1) * (2 * d) := Int.lt_ediv_add_one_mul_self _ (by omega)
  constructor <;> linarith

theorem rnd_nearest_of_nonneg {n d : Int} (hn : 0 ≤ n) (hd : 0 < d) :
    2 * (rnd n d * d - n).natAbs ≤ d.natAbs ∧
      (2 * (rnd n d * d - n).natAbs = d.natAbs → n.natAbs ≤ (rnd n d * d).natAbs) := by
  obtain ⟨hlow, hhigh⟩ := rnd_mul_bounds_of_nonneg hn hd
  constructor <;> omega

/-- Settles O56: the floor bounds give it at a non-negative numerator, and a negative one mirrors that case. -/
theorem roundingIsNearestTiesAwayFromZero : Obligations.RoundingIsNearestTiesAwayFromZero := by
  intro n d hd
  obtain hn | hn := le_or_gt 0 n
  · exact rnd_nearest_of_nonneg hn hd
  · have hmirror := rnd_nearest_of_nonneg (by omega : 0 ≤ -n) hd
    rw [rnd_of_neg hn, Int.neg_mul]
    constructor <;> omega

end Sys2Proof.Machine
end

section
namespace Sys2Proof.Machine

/-! ### Keeping the invariant (R24, R60, R67) -/

/-- A fill from index 0 inside the extent keeps a memory in form. -/
theorem Memory.ok_fill_zero {w : Nat} {m : Memory w} {extent n : Nat} (f : Nat → BitVec w) (h : m.ok extent)
    (hn : n ≤ extent) : (m.fill 0 n f).ok extent :=
  ⟨m.fill_wf 0 n f h.1, m.fill_within 0 n extent f h.2 (by omega)⟩

/-- While VALID = 1 the header registers satisfy the image invariant (R24). -/
theorem State.imageOk_of_inv {s : State} (h : s.Inv) (hv : s.valid = true) : s.hdr.imageOk s.caps.pixCap := h.2.1 hv

theorem State.inv_resetWith {caps : Caps} (h : capsOk caps) (draw : Nat) (inbox : List Event) :
    (State.resetWith caps draw inbox).Inv :=
  ⟨h, fun hv => absurd hv Bool.false_ne_true, State.memoriesOk_resetWith caps draw inbox⟩

theorem State.inv_setPix {s : State} (h : s.Inv) {n : Nat} (hn : n ≤ s.caps.pixCap) (f : Nat → Byte) :
    (s.setPix n f).Inv := by
  obtain ⟨hcaps, himage, ⟨hfmem, hpix, hpal⟩, htables⟩ := h
  exact ⟨hcaps, himage, ⟨hfmem, Memory.ok_fill_zero f hpix hn, hpal⟩, htables⟩

/-! ### The pixel transforms write exactly the NBYTES bytes of the image -/

theorem Header.npix_of_depth8 {h : Header} (hd : h.depth = 8) : h.npix = h.nbytes := by
  rw [Header.nbytes, Header.bppb_of_depth8 hd, Nat.mul_one]

theorem Header.three_mul_npix_of_depth24 {h : Header} (hd : h.depth = 24) : 3 * h.npix = h.nbytes := by
  rw [Header.nbytes, Header.bppb_of_depth24 hd, Nat.mul_comm]

theorem threshEffect_eq_setPix_nbytes {s : State} (hd : s.hdr.depth = 8 ∨ s.hdr.depth = 24) :
    ∃ f, threshEffect s = s.setPix s.hdr.nbytes f := by
  unfold threshEffect
  split
  · next h8 => exact ⟨_, by rw [Header.npix_of_depth8 h8]⟩
  · next h8 => exact ⟨_, by rw [Header.three_mul_npix_of_depth24 (hd.resolve_left h8)]⟩

theorem equalizePixels_eq_setPix_nbytes {s : State} (hd : s.hdr.depth = 8 ∨ s.hdr.depth = 24) :
    ∃ f, equalizePixels s = s.setPix s.hdr.nbytes f := by
  unfold equalizePixels
  split
  · next h8 => exact ⟨_, by rw [Header.npix_of_depth8 h8]⟩
  · next h8 => exact ⟨_, by rw [Header.three_mul_npix_of_depth24 (hd.resolve_left h8)]⟩

/-- GRAY belongs here because its checks leave depth 24 only (R107 (3)). -/
theorem effectOf_eq_setPix_nbytes {i : Instr} {s : State} (hd : s.hdr.depth = 8 ∨ s.hdr.depth = 24)
    (hi : i ∈ [.neg, .bright, .thresh, .gray, .blur, .gauss, .outline, .emboss, .sharpen])
    (hc : firstFailing (checksOf i s) = none) : ∃ f, effectOf i s = s.setPix s.hdr.nbytes f := by
  cases i with
  | neg | bright | blur | gauss | outline | emboss | sharpen => exact ⟨_, rfl⟩
  | thresh => exact threshEffect_eq_setPix_nbytes hd
  | gray =>
    have h8 : s.hdr.depth ≠ 8 := by
      have := (firstFailing_eq_none_iff _).1 hc (s.hdr.depth == 8, .illegalCommand) (by simp [checksOf])
      simpa using this
    exact ⟨_, by rw [effectOf, Header.three_mul_npix_of_depth24 (hd.resolve_left h8)]⟩
  | nop | free | decode8 | decode24 | encode | alloc | equalize => simp at hi

/-- A command whose checks pass has an image, unless it is one that needs none (R107 (2)). -/
theorem valid_of_checks {i : Instr} {s : State} (hi : needsImage s ∈ checksOf i s)
    (hc : firstFailing (checksOf i s) = none) : s.valid = true := by
  simpa [needsImage] using (firstFailing_eq_none_iff _).1 hc _ hi

/-! ### DECODE and ALLOC install a legal header -/

/-- The accepted file's header satisfies the image invariant; H_SIG is the signature bytes (R24, R131). -/
theorem State.imageOk_fileHeader {s : State} {d : Nat} (hd : d = 8 ∨ d = 24) (h : s.fileAccepted d) :
    s.fileHeader.imageOk s.caps.pixCap := by
  obtain ⟨⟨-, hB, hM⟩, ⟨hplanes, hbpp, hcompr, hw, hh⟩, hcap, -, -⟩ := h
  have hsig : s.fileHeader.sig = 0x4D42 := by
    simp only [State.fileHeader, extractHeader, u16le, Nat.zero_add, hB, hM]
    decide
  exact ⟨by rwa [Header.depth, hbpp], hw, hh, by rwa [Header.nbytes_of_depth hbpp], hsig, hplanes, hcompr⟩

/-- The checks of ALLOC all pass exactly when the operands are legal and the image fits (R181 steps 1 and 2). -/
theorem allocChecks_eq_none_iff (d : Nat) (s : State) :
    firstFailing (allocChecks d s) = none ↔
      (0 < s32 s.arg0 ∧ s32 s.arg1 ≠ 0 ∧ (d = 8 ∨ d = 24)) ∧
        (s32 s.arg0).toNat * (s32 s.arg1).natAbs * (d / 8) ≤ s.caps.pixCap := by
  rw [firstFailing_eq_none_iff]
  simp only [allocChecks, List.mem_cons, List.not_mem_nil, or_false, forall_eq_or_imp, forall_eq, Bool.or_eq_false_iff,
    decide_eq_false_iff_not, Bool.not_eq_false', Bool.or_eq_true, beq_iff_eq, Int.not_le, gt_iff_lt, Nat.not_lt,
    ne_eq, and_assoc]

theorem imageOk_allocHeader {w h : Word} {d pixCap : Nat} (hw : 0 < s32 w) (hh : s32 h ≠ 0) (hd : d = 8 ∨ d = 24)
    (hcap : (s32 w).toNat * (s32 h).natAbs * (d / 8) ≤ pixCap) : (allocHeader w h d).imageOk pixCap := by
  have hbpp : (allocHeader w h d).bpp.toNat = d := by
    rcases hd with rfl | rfl <;> rfl
  exact ⟨by rwa [Header.depth, hbpp], hw, hh, by rwa [Header.nbytes_of_depth hbpp], rfl, rfl, rfl⟩

/-- The new state of DECODE or ALLOC: a legal header, its NBYTES bytes of PIX filled, and on depth 8 the palette. -/
theorem State.inv_newImage {s : State} (h : s.Inv) {hdr : Header} (himage : hdr.imageOk s.caps.pixCap) (d : Nat)
    (pal pix : Nat → Byte) :
    ({ s with
        hdr, valid := true, pal := if d = 8 then s.pal.fill 0 paletteSize pal else s.pal,
        pix := s.pix.fill 0 hdr.nbytes pix } : State).Inv := by
  obtain ⟨hcaps, -, ⟨hfmem, hpix, hpal⟩, htables⟩ := h
  have ⟨_, _, _, hfits, _⟩ := himage
  refine ⟨hcaps, fun _ => himage, ⟨hfmem, Memory.ok_fill_zero pix hpix hfits, ?_⟩, htables⟩
  split
  · exact Memory.ok_fill_zero pal hpal (Nat.le_refl _)
  · exact hpal

theorem decodeEffect_inv {s : State} (h : s.Inv) {d : Nat} (hd : d = 8 ∨ d = 24)
    (hc : firstFailing (decodeChecks d s) = none) : (decodeEffect d s).Inv :=
  State.inv_newImage h (State.imageOk_fileHeader hd ((decodeChecks_eq_none_iff d s).1 hc)) d _ _

theorem allocEffect_inv {s : State} (h : s.Inv) {d : Nat} (hc : firstFailing (allocChecks d s) = none) :
    (allocEffect d s).Inv := by
  obtain ⟨⟨hw, hh, hd⟩, hcap⟩ := (allocChecks_eq_none_iff d s).1 hc
  exact State.inv_newImage h (imageOk_allocHeader hw hh hd hcap) d _ _

/-! ### Every command, transaction and step -/

theorem encodeEffect_inv {s : State} (h : s.Inv) (hc : firstFailing (encodeChecks s) = none) : (encodeEffect s).Inv := by
  obtain ⟨hcaps, himage, ⟨hfmem, hpix, hpal⟩, htables⟩ := h
  have hfits : s.hdr.fileSize ≤ s.caps.fileCap := by
    have := (firstFailing_eq_none_iff _).1 hc (decide (s.hdr.fileSize > s.caps.fileCap), .io) (by simp [encodeChecks])
    simpa using this
  exact ⟨hcaps, himage, ⟨Memory.ok_fill_zero _ hfmem hfits, hpix, hpal⟩, htables⟩

theorem equalizeEffect_inv {s : State} (h : s.Inv) (hv : s.valid = true) : (equalizeEffect s).Inv := by
  obtain ⟨hdepth, -, -, hfits, -⟩ := State.imageOk_of_inv h hv
  obtain ⟨f, hf⟩ := equalizePixels_eq_setPix_nbytes hdepth
  obtain ⟨hcaps, himage, hbytes, hlut, hhist, hcdf⟩ := State.inv_setPix h hfits f
  rw [equalizeEffect, hf]
  exact ⟨hcaps, himage, hbytes, Memory.ok_fill_zero _ hlut (Nat.le_refl _), Memory.ok_fill_zero _ hhist (Nat.le_refl _),
    Memory.ok_fill_zero _ hcdf (Nat.le_refl _)⟩

/-- The writes of a command whose checks passed keep the invariant. -/
theorem effectOf_inv {i : Instr} {s : State} (h : s.Inv) (hc : firstFailing (checksOf i s) = none) :
    (effectOf i s).Inv := by
  cases i with
  | nop => exact h
  | free =>
    obtain ⟨hcaps, -, hmems⟩ := h
    exact ⟨hcaps, fun hv => absurd hv Bool.false_ne_true, hmems⟩
  | decode8 => exact decodeEffect_inv h (.inl rfl) hc
  | decode24 => exact decodeEffect_inv h (.inr rfl) hc
  | encode => exact encodeEffect_inv h hc
  | alloc depth => exact allocEffect_inv h hc
  | equalize => exact equalizeEffect_inv h (valid_of_checks (by simp [checksOf]) hc)
  | neg | bright | thresh | gray | blur | gauss | outline | emboss | sharpen =>
    obtain ⟨hdepth, -, -, hfits, -⟩ := State.imageOk_of_inv h (valid_of_checks (by simp [checksOf]) hc)
    obtain ⟨f, hf⟩ := effectOf_eq_setPix_nbytes hdepth (by simp) hc
    rw [hf]
    exact State.inv_setPix h hfits f

theorem sequencerTurn_inv {s t : State} (h : s.Inv) (ht : sequencerTurn s = .next t) : t.Inv := by
  rcases sequencerTurn_cases s with ⟨-, hs⟩ | ⟨-, k, hs⟩ | ⟨-, i, -, hc, hs⟩ <;> cases hs.symm.trans ht
  · exact h
  · exact h
  · exact effectOf_inv h hc

theorem State.inv_regWrite {s : State} (h : s.Inv) (a : Nat) (v : Word) : (s.regWrite a v).Inv := by
  rw [State.regWrite_frame]; exact h

theorem State.inv_writeByte {s : State} (h : s.Inv) (S : ByteSpace) {i : Nat} (hi : i < s.byteExtent S) (v : Byte) :
    (s.writeByte S i v).Inv := by
  obtain ⟨hcaps, himage, hmems⟩ := h
  have hm := State.memoriesOk_writeByte hmems S i v hi
  rw [State.writeByte_frame] at hm ⊢
  exact ⟨hcaps, himage, hm⟩

theorem Txn.effect_inv {s : State} (h : s.Inv) {t : Txn} (he : Txn.inExtent s t = true) : (Txn.effect s t).Inv := by
  cases t with
  | regRead | byteRead | wordRead | wordWrite => exact h
  | regWrite a v => exact State.inv_regWrite h a v
  | byteWrite S i v => exact State.inv_writeByte h S (of_decide_eq_true he) v

theorem performTxn_inv {s t : State} {x : Txn} (h : s.Inv) (ht : performTxn x s = .next t) : t.Inv := by
  rcases performTxn_cases x s with ⟨-, -, hs⟩ | ⟨-, -, hs⟩ | ⟨-, he, hs⟩ <;> cases hs.symm.trans ht
  exact Txn.effect_inv h he

/-- Settles O58: one case per kind of event; a taken event leaves everything the invariant speaks of alone. -/
theorem everyStepKeepsTheInvariant : Obligations.EveryStepKeepsTheInvariant := by
  intro s t h ht
  rcases step_cases s with ⟨-, hs⟩ | ⟨x, rest, -, hs⟩ | ⟨rest, -, hs⟩ | ⟨rest, -, hs⟩ <;> rw [hs] at ht
  · exact sequencerTurn_inv h ht
  · exact performTxn_inv (s := { s with inbox := rest }) h ht
  · exact sequencerTurn_inv (s := { s with inbox := rest }) h ht
  · cases ht
    obtain ⟨hcaps, -⟩ := h
    exact State.inv_resetWith hcaps (s.draw + 1) rest

/-- Settles O57: a reset state is `State.resetWith` of legal capacities. -/
theorem resetSatisfiesTheInvariant : Obligations.ResetSatisfiesTheInvariant :=
  ⟨State.inv_resetWith (by decide) 0 [], fun _ draw inbox h => State.inv_resetWith h draw inbox⟩

/-! ### STATUS and the metadata registers (R24, R26) -/

theorem ErrKind.code_lt (k : ErrKind) : k.code < 8 := by
  cases k <;> decide

/-- STATUS as a number: no field reaches into the next. -/
theorem State.status_toNat (s : State) : s.status.toNat = s.busy.toNat + 2 * s.valid.toNat + 16 * s.err.code := by
  have hbusy := s.busy.toNat_lt
  have hvalid := s.valid.toNat_lt
  have hcode := s.err.code_lt
  rw [State.status, BitVec.toNat_ofNat, Nat.mod_eq_of_lt (by omega)]

/-- Settles O47: the fields of the sum are disjoint, so division and remainder read each back. -/
theorem statusWordLayout : Obligations.StatusWordLayout := by
  refine ⟨fun s => ?_, rfl⟩
  have hbusy := s.busy.toNat_lt
  have hvalid := s.valid.toNat_lt
  have hcode := s.err.code_lt
  rw [State.regRead_status, State.status_toNat]
  dsimp only
  omega

theorem Header.width_toNat_of_pos {h : Header} (hw : 0 < s32 h.width) : h.width.toNat = h.w :=
  (Int.ofNat.inj (s32_toNat_natAbs_of_pos hw)).symm

theorem Header.mRows_toNat (h : Header) : h.mRows.toNat = h.rows := by
  have : h.rows ≤ 2 ^ 31 := s32_natAbs_le h.height
  rw [Header.mRows, BitVec.toNat_ofNat, Nat.mod_eq_of_lt (by omega)]

theorem Header.mStride_toNat {h : Header} (hd : h.depth = 8 ∨ h.depth = 24) (hw : 0 < s32 h.width) :
    h.mStride.toNat = h.stride % 2 ^ 32 := by
  rw [Header.stride, Header.mStride, h.width_toNat_of_pos hw]
  rcases hd with hd | hd
  · have hbpp : h.bpp = 8 := BitVec.eq_of_toNat_eq hd
    rw [Header.bppb_of_depth8 hd, hbpp]; rfl
  · have hbpp : h.bpp = 24 := BitVec.eq_of_toNat_eq hd
    rw [Header.bppb_of_depth24 hd, hbpp]; rfl

theorem Header.mDataSize_toNat {h : Header} (hd : h.depth = 8 ∨ h.depth = 24) (hw : 0 < s32 h.width) :
    h.mDataSize.toNat = h.stride * h.rows % 2 ^ 32 := by
  rw [Header.mDataSize, BitVec.toNat_mul, Header.mStride_toNat hd hw, Header.mRows_toNat, Nat.mod_mul_mod]

theorem Header.bpp_setWidth_toNat (h : Header) : (h.bpp.setWidth 32).toNat = h.depth :=
  BitVec.toNat_setWidth_of_le (by decide)

/-- Settles O48: the image invariant makes the width positive and the depth 8 or 24, which is what M_STRIDE needs. -/
theorem metadataRegistersGiveTheGeometry : Obligations.MetadataRegistersGiveTheGeometry := by
  intro s h hv
  obtain ⟨hdepth, hwidth, -⟩ := State.imageOk_of_inv h hv
  exact ⟨s.hdr.width_toNat_of_pos hwidth, s.hdr.mRows_toNat, s.hdr.bpp_setWidth_toNat, s.hdr.mStride_toNat hdepth hwidth,
    s.hdr.mDataSize_toNat hdepth hwidth⟩

end Sys2Proof.Machine
end

section
namespace Sys2Proof.Machine

/-! ### What each command may write (R60, R23, R27, R32) -/

/-- The clauses of R60's table on the writes of a command whose checks passed; `effectOf_frame` has the state no command
writes. -/
theorem effectOf_writes_own_state (i : Instr) (s : State) :
    (i ≠ .encode → (effectOf i s).fmem = s.fmem ∧ (effectOf i s).flen = s.flen) ∧
      (i ≠ .decode8 → i ≠ .decode24 → (∀ d, i ≠ .alloc d) →
        (effectOf i s).hdr = s.hdr ∧ (effectOf i s).pal = s.pal ∧ (i ≠ .free → (effectOf i s).valid = s.valid)) ∧
      (i ≠ .equalize →
        (effectOf i s).hist = s.hist ∧ (effectOf i s).cdf = s.cdf ∧ (effectOf i s).lut = s.lut) ∧
      (i ∈ [.nop, .free, .encode] → (effectOf i s).pix = s.pix) := by
  have transform_eq_setPix := effectOf_eq_setPix (i := i) s
  cases i with
  | nop => exact ⟨fun _ => ⟨rfl, rfl⟩, fun _ _ _ => ⟨rfl, rfl, fun _ => rfl⟩, fun _ => ⟨rfl, rfl, rfl⟩, fun _ => rfl⟩
  | free =>
    exact ⟨fun _ => ⟨rfl, rfl⟩, fun _ _ _ => ⟨rfl, rfl, fun h => absurd rfl h⟩, fun _ => ⟨rfl, rfl, rfl⟩, fun _ => rfl⟩
  | encode =>
    exact ⟨fun h => absurd rfl h, fun _ _ _ => ⟨rfl, rfl, fun _ => rfl⟩, fun _ => ⟨rfl, rfl, rfl⟩, fun _ => rfl⟩
  | decode8 => exact ⟨fun _ => ⟨rfl, rfl⟩, fun h => absurd rfl h, fun _ => ⟨rfl, rfl, rfl⟩, by simp⟩
  | decode24 => exact ⟨fun _ => ⟨rfl, rfl⟩, fun _ h => absurd rfl h, fun _ => ⟨rfl, rfl, rfl⟩, by simp⟩
  | alloc d => exact ⟨fun _ => ⟨rfl, rfl⟩, fun _ _ h => absurd rfl (h d), fun _ => ⟨rfl, rfl, rfl⟩, by simp⟩
  | equalize =>
    rw [effectOf, equalizeEffect_frame s]
    exact ⟨fun _ => ⟨rfl, rfl⟩, fun _ _ _ => ⟨rfl, rfl, fun _ => rfl⟩, fun h => absurd rfl h, by simp⟩
  | neg | bright | thresh | gray | blur | gauss | outline | emboss | sharpen =>
    obtain ⟨n, f, hpix⟩ := transform_eq_setPix (by simp)
    rw [hpix]
    exact ⟨fun _ => ⟨rfl, rfl⟩, fun _ _ _ => ⟨rfl, rfl, fun _ => rfl⟩, fun _ => ⟨rfl, rfl, rfl⟩, by simp⟩

/-- Settles O8: a failing command changes ERR and BUSY only, and a completing one is its writes followed by `done`. -/
theorem commandsWriteOnlyTheirOwnState : Obligations.CommandsWriteOnlyTheirOwnState := by
  intro i s t ht
  rcases exec_cases i s with ⟨k, -, hs⟩ | ⟨-, hs⟩ <;> cases hs.symm.trans ht
  · exact ⟨⟨rfl, rfl, rfl, rfl, rfl, rfl, rfl⟩, fun _ => ⟨rfl, rfl⟩, fun _ _ _ => ⟨rfl, rfl, fun _ => rfl⟩,
      fun _ => ⟨rfl, rfl, rfl⟩, fun _ => rfl⟩
  · exact ⟨effectOf_frame i s, effectOf_writes_own_state i s⟩

/-! ### A step with a host transaction next (R62, R67, R74) -/

/-- Only a STATUS read is allowed while a command runs (R74). -/
theorem Txn.allowedWhileBusy_eq_true_iff (t : Txn) : t.allowedWhileBusy = true ↔ t = .regRead 0x0C := by
  cases t <;> simp [Txn.allowedWhileBusy]

theorem wordExtent_eq (S : WordSpace) : wordExtent S = 256 := by
  cases S <;> rfl

/-- A STATUS read is defined in every state (R74). -/
theorem performTxn_of_status_read (s : State) :
    performTxn (.regRead 0x0C) s = .next { s with reply := .word s.status } := by
  have ha : (Txn.regRead 0x0C).allowedWhileBusy = true := rfl
  rw [performTxn, ha, Bool.not_true, Bool.and_false]; rfl

section
variable {s : State} {t : Txn}

theorem performTxn_of_busy (hb : s.busy = true) (ha : t.allowedWhileBusy = false) :
    performTxn t s = .refused .hostWhileBusy := by
  rw [performTxn, hb, ha]; rfl

theorem performTxn_of_idle (hb : s.busy = false) :
    performTxn t s = if Txn.inExtent s t then .next (Txn.effect s t) else .refused .indexOutOfExtent := by
  rw [performTxn, hb]
  cases Txn.inExtent s t <;> rfl

/-- While idle a transaction inside its space's extent takes effect, itself taken from the inbox. -/
theorem step_of_txn_in_extent {rest : List Event} (h : s.inbox = .host t :: rest) (hb : s.busy = false)
    (he : Txn.inExtent s t = true) : step s = .next (Txn.effect { s with inbox := rest } t) :=
  (step_of_event h).trans ((performTxn_of_idle (s := { s with inbox := rest }) hb).trans (if_pos he))

theorem step_of_txn_beyond_extent {rest : List Event} (h : s.inbox = .host t :: rest) (hb : s.busy = false)
    (he : Txn.inExtent s t = false) : step s = .refused .indexOutOfExtent :=
  (step_of_event h).trans
    ((performTxn_of_idle (s := { s with inbox := rest }) hb).trans (if_neg (Bool.eq_false_iff.1 he)))

end

/-! ### The register map (R61) -/

/-- A write to a read-only or reserved register does nothing (R61). -/
theorem State.regWrite_of_not_writable (s : State) {a : Nat} (v : Word) (h : a ∉ [0x00, 0x04, 0x08, 0x10]) :
    s.regWrite a v = s := by
  simp only [List.mem_cons, List.not_mem_nil, or_false, not_or] at h
  obtain ⟨hcmd, harg0, harg1, hflen⟩ := h
  rw [State.regWrite, if_neg hcmd, if_neg harg0, if_neg harg1, if_neg hflen]

/-- An address that is no key of the register map reads 0, in every state (R61). -/
theorem State.regRead_of_unlisted {s : State} {a : Nat} (h : a ∉ s.registers.map Prod.fst) : s.regRead a = 0 := by
  refine State.regRead_of_reserved (List.lookup_eq_none_iff.2 fun p hp => ?_)
  rw [bne_iff_ne]
  rintro rfl
  exact h (List.mem_map_of_mem hp)

theorem toNat_setWidth_half (x : Half) : (x.setWidth 32).toNat = x.toNat := BitVec.toNat_setWidth_of_le (by decide)

/-! ### The host's reads and writes (R61, R62, R67, R74) -/

/-- Settles O51: the transaction is defined, and its effect is `State.writeByte` or nothing. -/
theorem hostByteWritesSetOneByte : Obligations.HostByteWritesSetOneByte := by
  constructor
  · intro s S i v rest hb hi h
    exact step_of_txn_in_extent h hb (decide_eq_true (by rwa [wordExtent_eq]))
  · intro s S i v rest hb hi h
    refine ⟨_, step_of_txn_in_extent h hb (decide_eq_true hi), State.writeByte_frame _ S i v, ?_, ?_, ?_⟩
    · rintro rfl; rfl
    · exact State.readByte_writeByte_self _ i v
    · exact fun S' j => State.readByte_writeByte_of_ne { s with inbox := rest } S S' i j v

/-- Settles O49: a register write is always defined while idle; the addresses of the map are the 26 listed ones. -/
theorem registerWritesReachOnlyWritableRegisters : Obligations.RegisterWritesReachOnlyWritableRegisters := by
  intro s a v rest hb h
  have hstep : step s = .next (State.regWrite { s with inbox := rest } a v) := step_of_txn_in_extent h hb rfl
  refine ⟨fun ha => ?_, ?_, ?_, ?_, State.regRead_of_unlisted⟩
  · rw [hstep, State.regWrite_of_not_writable _ v ha]
  · rintro rfl; exact hstep
  · rintro rfl; exact hstep
  · rintro rfl; exact hstep

/-- Settles O50: each register is found in the map under its address, and a read inside the extent is defined. -/
theorem hostReadsHaveNoSideEffect : Obligations.HostReadsHaveNoSideEffect := by
  constructor
  · intro s
    exact ⟨⟨rfl, rfl, rfl, rfl⟩, toNat_setWidth_half _, rfl, toNat_setWidth_half _, toNat_setWidth_half _, rfl, rfl, rfl,
      rfl, toNat_setWidth_half _, toNat_setWidth_half _, rfl, rfl, rfl, rfl, rfl, rfl⟩
  · intro s rest hb
    refine ⟨fun a h => ?_, fun S i h hi => ?_, fun S i h hi => ?_⟩
    · exact step_of_txn_in_extent h hb rfl
    · exact step_of_txn_in_extent h hb (decide_eq_true hi)
    · exact step_of_txn_in_extent h hb (decide_eq_true (by rwa [wordExtent_eq]))

/-- Settles O52: the STATUS read is the one transaction allowed, and BUSY is the only odd term of STATUS. -/
theorem hostIsRefusedWhileBusy : Obligations.HostIsRefusedWhileBusy := by
  intro s t rest hb h
  refine ⟨?_, fun ht => ?_⟩
  · rintro rfl
    have hstep : step s = performTxn (.regRead 0x0C) { s with inbox := rest } := step_of_event h
    refine ⟨hstep.trans (performTxn_of_status_read _), ?_⟩
    rw [State.status_toNat, hb, Bool.toNat_true]
    omega
  · have ha : t.allowedWhileBusy = false := Bool.eq_false_iff.2 (mt t.allowedWhileBusy_eq_true_iff.1 ht)
    exact (step_of_event h).trans (performTxn_of_busy hb ha)

/-- Settles O53: the bounds named are the extents of the spaces. -/
theorem indicesOutsideASpaceAreRefused : Obligations.IndicesOutsideASpaceAreRefused := by
  intro s i rest hb
  refine ⟨fun S n hn hi => ?_, fun S hi => ?_⟩
  · have hextent : s.byteExtent S = n := by
      rcases hn with ⟨rfl, rfl⟩ | ⟨rfl, rfl⟩ | ⟨rfl, rfl⟩ | ⟨rfl, rfl⟩ <;> rfl
    have hout : ¬i < s.byteExtent S := by omega
    exact ⟨fun h => step_of_txn_beyond_extent h hb (decide_eq_false hout),
      fun v h => step_of_txn_beyond_extent h hb (decide_eq_false hout)⟩
  · have hout : ¬i < wordExtent S := by rw [wordExtent_eq]; omega
    exact ⟨fun h => step_of_txn_beyond_extent h hb (decide_eq_false hout),
      fun v h => step_of_txn_beyond_extent h hb (decide_eq_false hout)⟩

end Sys2Proof.Machine
end

section
namespace Sys2Proof

/-! ### The decoder, one equation per group of opcodes (R100, R101) -/

section
variable {w : Word}

theorem decode_of_zeroField_ne (hz : zeroField w ≠ 0) : decode w = .error .zeroField := if_pos hz

theorem decode_of_decode_opcode (hz : zeroField w = 0) (hop : opField w = 0x01) :
    decode w = if immField w = 8 then .ok .decode8 else if immField w = 24 then .ok .decode24 else .error .depth := by
  rw [decode, if_neg (not_not_intro hz), if_pos hop]

theorem decode_of_alloc_opcode (hz : zeroField w = 0) (hop : opField w = 0x03) :
    decode w = .ok (.alloc (immField w)) := by
  rw [decode, if_neg (not_not_intro hz), if_neg (by omega), if_pos hop]

/-- The lookup finds each plain command, and no plain opcode is that of DECODE or ALLOC. -/
theorem plainCommands_lookup {op : Nat} {i : Instr} (h : (op, i) ∈ plainCommands) :
    op ≠ 0x01 ∧ op ≠ 0x03 ∧ plainCommands.lookup op = some i := by
  have hall : ∀ p ∈ plainCommands, p.1 ≠ 0x01 ∧ p.1 ≠ 0x03 ∧ plainCommands.lookup p.1 = some p.2 := by decide
  exact hall _ h

theorem plainCommands_fields {op : Nat} {i : Instr} (h : (op, i) ∈ plainCommands) :
    i.wellFormed = true ∧ i.opcode = op ∧ i.imm8 = 0 := by
  have hall : ∀ p ∈ plainCommands, p.2.wellFormed = true ∧ p.2.opcode = p.1 ∧ p.2.imm8 = 0 := by decide
  exact hall _ h

theorem decode_of_plain_opcode {i : Instr} (hz : zeroField w = 0) (hop : (opField w, i) ∈ plainCommands) :
    decode w = if immField w = 0 then .ok i else .error .immediate := by
  obtain ⟨hdecode, halloc, hlookup⟩ := plainCommands_lookup hop
  rw [decode, if_neg (not_not_intro hz), if_neg hdecode, if_neg halloc, hlookup]

theorem decode_of_unlisted_opcode (hz : zeroField w = 0) (hdecode : opField w ≠ 0x01) (halloc : opField w ≠ 0x03)
    (hop : ∀ i, (opField w, i) ∉ plainCommands) : decode w = .error .opcode := by
  have hlookup : plainCommands.lookup (opField w) = none := by
    refine List.lookup_eq_none_iff.2 fun p hp => bne_iff_ne.2 ?_
    intro heq
    exact hop p.2 (heq ▸ hp)
  rw [decode, if_neg (not_not_intro hz), if_neg hdecode, if_neg halloc, hlookup]

end

/-- Every opcode is DECODE's, ALLOC's, that of a command whose IMM8 must be 0, or none (R100). -/
theorem opcode_cases (op : Nat) :
    op = 0x01 ∨ op = 0x03 ∨ (∃ i, (op, i) ∈ plainCommands) ∨
      (op ≠ 0x01 ∧ op ≠ 0x03 ∧ ∀ i, (op, i) ∉ plainCommands) := by
  rw [← not_exists]
  tauto

/-- The 15 opcodes of the map are DECODE's, ALLOC's and the plain ones (R100). -/
theorem mem_opcodes_iff (op : Nat) :
    op ∈ [0x00, 0x01, 0x02, 0x03, 0x04, 0x10, 0x11, 0x12, 0x13, 0x20, 0x21, 0x22, 0x23, 0x24, 0x30] ↔
      op = 0x01 ∨ op = 0x03 ∨ ∃ i, (op, i) ∈ plainCommands := by
  simp only [plainCommands, List.mem_cons, List.not_mem_nil, or_false, Prod.mk.injEq, exists_or,
    exists_eq_right]
  omega

/-! ### Legal words and commands (R90, R100, R102) -/

/-- A legal word has zeros above its command's opcode and immediate (R90, R100). -/
theorem fields_of_decode_eq_ok {w : Word} {i : Instr} (h : decode w = .ok i) :
    i.wellFormed = true ∧ opField w = i.opcode ∧ immField w = i.imm8 ∧ zeroField w = 0 := by
  have hz : zeroField w = 0 := by
    by_contra hz
    cases (decode_of_zeroField_ne hz).symm.trans h
  rcases opcode_cases (opField w) with hop | hop | ⟨j, hop⟩ | ⟨hdecode, halloc, hop⟩
  · rw [decode_of_decode_opcode hz hop] at h
    split at h
    · next himm => cases h; exact ⟨rfl, hop, himm, hz⟩
    split at h
    · next himm => cases h; exact ⟨rfl, hop, himm, hz⟩
    · cases h
  · cases (decode_of_alloc_opcode hz hop).symm.trans h
    have himm : immField w < 256 := by rw [immField_eq]; omega
    exact ⟨decide_eq_true himm, hop, rfl, hz⟩
  · rw [decode_of_plain_opcode hz hop] at h
    split at h
    · next himm =>
      cases h
      obtain ⟨hwf, hopcode, himm8⟩ := plainCommands_fields hop
      exact ⟨hwf, hopcode.symm, himm.trans himm8.symm, hz⟩
    · cases h
  · cases (decode_of_unlisted_opcode hz hdecode halloc hop).symm.trans h

/-- The decoder reads a command off its fields (R90, R100). -/
theorem decode_eq_ok_of_fields {w : Word} {i : Instr} (hop : opField w = i.opcode) (himm : immField w = i.imm8)
    (hz : zeroField w = 0) : decode w = .ok i := by
  cases i with
  | decode8 => rw [decode_of_decode_opcode hz hop, himm]; rfl
  | decode24 => rw [decode_of_decode_opcode hz hop, himm]; rfl
  | alloc depth => rw [decode_of_alloc_opcode hz hop, himm]; rfl
  | nop | encode | free | neg | bright | thresh | gray | blur | gauss | outline | emboss | sharpen | equalize =>
    exact (decode_of_plain_opcode hz (by rw [hop]; decide)).trans (if_pos himm)

open Laws Laws.EncodedFields in
/-- The word of a well-formed command has the command's fields (R90): the family `EncodedFields` over all commands. -/
theorem encode_fields (i : Instr) : Statement i := by
  cases i
  exacts [nop, decode8, decode24, EncodedFields.encode, alloc _, free, neg, bright, thresh, gray, blur, gauss, outline,
    emboss, sharpen, equalize]

theorem encode_toNat {i : Instr} (h : i.wellFormed = true) : (encode i).toNat = i.imm8 * 256 + i.opcode := by
  obtain ⟨hop, himm, hz⟩ := encode_fields i h
  rw [toNat_eq_fields, hop, himm, hz, Nat.zero_mul, Nat.zero_add]

/-- Settles O1: the encoded word has the command's fields, which are what the decoder asks for. -/
theorem decodeOfEncodeIsTheCommand : Obligations.DecodeOfEncodeIsTheCommand := by
  intro i h
  obtain ⟨hop, himm, hz⟩ := encode_fields i h
  exact decode_eq_ok_of_fields hop himm hz

/-- Settles O2: the word and the encoding have the same fields, and a word is the number its fields spell. -/
theorem legalWordsAreEncodedCommands : Obligations.LegalWordsAreEncodedCommands := by
  intro w i h
  obtain ⟨hwf, hop, himm, hz⟩ := fields_of_decode_eq_ok h
  refine ⟨hwf, BitVec.eq_of_toNat_eq ?_⟩
  rw [encode_toNat hwf, toNat_eq_fields w, hop, himm, hz, Nat.zero_mul, Nat.zero_add]

/-! ### Illegal words (R101) -/

/-- A word is illegal exactly by one of the clauses (a) to (d) of R101, in the fields of the word. -/
theorem exists_decode_eq_error_iff (w : Word) :
    (∃ e, decode w = .error e) ↔
      zeroField w ≠ 0 ∨
        opField w ∉ [0x00, 0x01, 0x02, 0x03, 0x04, 0x10, 0x11, 0x12, 0x13, 0x20, 0x21, 0x22, 0x23, 0x24, 0x30] ∨
        (opField w ≠ 0x01 ∧ opField w ≠ 0x03 ∧ immField w ≠ 0) ∨ (opField w = 0x01 ∧ immField w ∉ [8, 24]) := by
  by_cases hz : zeroField w = 0
  case neg => simp [decode_of_zeroField_ne hz, hz]
  rw [mem_opcodes_iff]
  rcases opcode_cases (opField w) with hop | hop | ⟨i, hop⟩ | ⟨hdecode, halloc, hop⟩
  · rw [decode_of_decode_opcode hz hop]
    by_cases h8 : immField w = 8 <;> by_cases h24 : immField w = 24 <;> simp [hz, hop, h8, h24]
  · simp [decode_of_alloc_opcode hz hop, hz, hop]
  · obtain ⟨hdecode, halloc, -⟩ := plainCommands_lookup hop
    have hlisted : ∃ i, (opField w, i) ∈ plainCommands := ⟨i, hop⟩
    rw [decode_of_plain_opcode hz hop]
    by_cases himm : immField w = 0 <;> simp [hz, hdecode, halloc, hlisted, himm]
  · simp [decode_of_unlisted_opcode hz hdecode halloc hop, hdecode, halloc, hop]

end Sys2Proof

namespace Sys2Proof.Machine

/-! ### The sequencer's turn (R106, R107) -/

theorem step_of_turn {s : State} {rest : List Event} (h : s.inbox = .sequencer :: rest) :
    step s = sequencerTurn { s with inbox := rest } := step_of_event h

theorem sequencerTurn_of_ok {s : State} {i : Instr} (hb : s.busy = true) (hd : decode s.cmd = .ok i) :
    sequencerTurn s = exec i s := (sequencerTurn_of_busy hb).trans (runCmd_of_ok hd)

theorem sequencerTurn_of_error {s : State} {e : Illegal} (hb : s.busy = true) (hd : decode s.cmd = .error e) :
    sequencerTurn s = .next (s.fail .illegalCommand) := (sequencerTurn_of_busy hb).trans (runCmd_of_error hd)

/-- A step that runs an illegal word is the error entry, with the turn taken from the inbox if one was there (R107 (1)). -/
theorem step_of_illegal_word {s : State} {e : Illegal} (rest : List Event) (hb : s.busy = true)
    (hd : decode s.cmd = .error e) :
    (s.inbox = [] → step s = .next (s.fail .illegalCommand)) ∧
      (s.inbox = .sequencer :: rest → step s = .next (State.fail { s with inbox := rest } .illegalCommand)) :=
  ⟨fun h => (step_of_empty h).trans (sequencerTurn_of_error hb hd),
    fun h => (step_of_turn h).trans (sequencerTurn_of_error (s := { s with inbox := rest }) hb hd)⟩

/-- ALLOC fails only with AllocationError (R181, R291). -/
theorem exec_alloc_of_rejected {d : Nat} {s : State} (h : firstFailing (allocChecks d s) ≠ none) :
    exec (.alloc d) s = .next (s.fail .allocation) := by
  obtain ⟨k, hk⟩ := Option.ne_none_iff_exists'.1 h
  have hkinds : ∀ c ∈ allocChecks d s, c.2 = .allocation := by simp [allocChecks]
  obtain rfl : k = .allocation := hkinds _ (firstFailing_mem hk)
  exact exec_of_fail hk

theorem exec_alloc_of_other_depth {d : Nat} (s : State) (h : d ∉ [8, 24]) :
    exec (.alloc d) s = .next (s.fail .allocation) := by
  refine exec_alloc_of_rejected fun hnone => h ?_
  obtain ⟨⟨-, -, hd⟩, -⟩ := (allocChecks_eq_none_iff d s).1 hnone
  simpa using hd

/-- Settles O3: the fields of the word are the quotients and remainders of R101, and running the word is the error entry. -/
theorem illegalWordsAreExactlyTheReservedOnes : Obligations.IllegalWordsAreExactlyTheReservedOnes := by
  refine ⟨fun w => ?_, fun s e rest => step_of_illegal_word rest, fun s w hz hop hd => ⟨?_, ?_⟩, rfl⟩
  · have h := exists_decode_eq_error_iff w
    rwa [opField_eq, immField_eq, zeroField_eq] at h
  · rw [← immField_eq]
    exact decode_of_alloc_opcode ((zeroField_eq w).trans hz) ((opField_eq w).trans hop)
  · exact exec_alloc_of_other_depth s hd

/-- Settles O4: the words of V1 evaluate to the commands of the map. -/
theorem opcodeMapWordsNameTheirCommands : Obligations.OpcodeMapWordsNameTheirCommands := by
  unfold Obligations.OpcodeMapWordsNameTheirCommands
  decide

/-- Settles O5: a waiting legal word is run at the state with the turn taken, and `withFetchWord` is such a state. -/
theorem stepRunsTheDecodedCommand : Obligations.StepRunsTheDecodedCommand := by
  refine ⟨fun s i rest hb hd => ⟨fun h => ?_, fun h => ?_⟩, fun s w i hw hd => ?_⟩
  · exact (step_of_empty h).trans (sequencerTurn_of_ok hb hd)
  · exact (step_of_turn h).trans (sequencerTurn_of_ok (s := { s with inbox := rest }) hb hd)
  · have hmod : w % 2 ^ 32 = w := Nat.mod_eq_of_lt hw
    constructor
    · rw [decodeTableWord, hmod, if_pos hw, hd]; rfl
    · rw [State.withFetchWord, hmod]
      exact (step_of_turn rfl).trans
        (sequencerTurn_of_ok (s := { s with cmd := BitVec.ofNat 32 w, busy := true }) rfl hd)

/-- Settles O6: a register write is defined while idle, and so is the turn of an idle block. -/
theorem commandWriteSetsBusyAndIdleBlockWaits : Obligations.CommandWriteSetsBusyAndIdleBlockWaits :=
  ⟨fun _ _ _ hb h => step_of_txn_in_extent h hb rfl,
    fun _ hb h => (step_of_empty h).trans (sequencerTurn_of_idle hb)⟩

/-! ### The common checks (R107 (2), (3)) -/

/-- The commands that need an image check it first (R107 (2)). -/
theorem checksOf_needsImage_first {i : Instr} (s : State)
    (hi : i ∈ [.encode, .neg, .bright, .thresh, .gray, .blur, .gauss, .outline, .emboss, .sharpen, .equalize]) :
    ∃ rest, checksOf i s = needsImage s :: rest := by
  cases i with
  | encode | neg | bright | thresh | gray | blur | gauss | outline | emboss | sharpen | equalize => exact ⟨_, rfl⟩
  | nop | decode8 | decode24 | alloc | free => simp at hi

theorem exec_of_no_image {i : Instr} {s : State}
    (hi : i ∈ [.encode, .neg, .bright, .thresh, .gray, .blur, .gauss, .outline, .emboss, .sharpen, .equalize])
    (hv : s.valid = false) : exec i s = .next (s.fail .illegalCommand) := by
  obtain ⟨rest, hchecks⟩ := checksOf_needsImage_first s hi
  refine exec_of_fail ?_
  rw [hchecks, needsImage, hv]; rfl

/-- Both checks of GRAY report the same kind, so on a depth-8 header it fails with or without an image (R107 (3)). -/
theorem exec_gray_of_depth8 {s : State} (hd : s.hdr.depth = 8) : exec .gray s = .next (s.fail .illegalCommand) := by
  refine exec_of_fail ?_
  rw [checksOf, needsImage, hd]
  cases s.valid <;> rfl

/-- Settles O10: each clause is the error entry. -/
theorem commonChecksFailWithIllegalCommand : Obligations.CommonChecksFailWithIllegalCommand :=
  ⟨fun _ _ rest => step_of_illegal_word rest, fun _ _ => exec_of_no_image, fun _ => exec_gray_of_depth8⟩

end Sys2Proof.Machine
end

section
namespace Sys2Proof.Machine

/-! ### The header of a file (R94, R133) -/

theorem ofNat_u16le_toNat (m : Nat → Byte) (a : Nat) : (BitVec.ofNat 16 (u16le m a)).toNat = u16le m a :=
  (BitVec.toNat_ofNat _ _).trans (Nat.mod_eq_of_lt (u16le_lt m a))

theorem ofNat_u32le_toNat (m : Nat → Byte) (a : Nat) : (BitVec.ofNat 32 (u32le m a)).toNat = u32le m a :=
  (BitVec.toNat_ofNat _ _).trans (Nat.mod_eq_of_lt (u32le_lt m a))

/-- The sixteen fields as the numbers their bytes spell. -/
theorem extractHeader_toNat (m : Nat → Byte) :
    (extractHeader m).sig.toNat = u16le m 0 ∧ (extractHeader m).fsize.toNat = u32le m 2 ∧
      (extractHeader m).res1.toNat = u16le m 6 ∧ (extractHeader m).res2.toNat = u16le m 8 ∧
      (extractHeader m).doff.toNat = u32le m 10 ∧ (extractHeader m).ihsize.toNat = u32le m 14 ∧
      (extractHeader m).width.toNat = u32le m 18 ∧ (extractHeader m).height.toNat = u32le m 22 ∧
      (extractHeader m).planes.toNat = u16le m 26 ∧ (extractHeader m).bpp.toNat = u16le m 28 ∧
      (extractHeader m).compr.toNat = u32le m 30 ∧ (extractHeader m).isize.toNat = u32le m 34 ∧
      (extractHeader m).xres.toNat = u32le m 38 ∧ (extractHeader m).yres.toNat = u32le m 42 ∧
      (extractHeader m).clrused.toNat = u32le m 46 ∧ (extractHeader m).clrimp.toNat = u32le m 50 :=
  ⟨ofNat_u16le_toNat m 0, ofNat_u32le_toNat m 2, ofNat_u16le_toNat m 6, ofNat_u16le_toNat m 8, ofNat_u32le_toNat m 10,
    ofNat_u32le_toNat m 14, ofNat_u32le_toNat m 18, ofNat_u32le_toNat m 22, ofNat_u16le_toNat m 26,
    ofNat_u16le_toNat m 28, ofNat_u32le_toNat m 30, ofNat_u32le_toNat m 34, ofNat_u32le_toNat m 38,
    ofNat_u32le_toNat m 42, ofNat_u32le_toNat m 46, ofNat_u32le_toNat m 50⟩

/-- The fields depend on the first 54 bytes only. -/
theorem extractHeader_congr {m m' : Nat → Byte} (h : ∀ k, k < 54 → m' k = m k) : extractHeader m' = extractHeader m := by
  simp [extractHeader, u16le, u32le, h]

theorem State.planes_fileHeader_eq_one_iff (s : State) : s.fileHeader.planes = 1 ↔ u16le (s.readByte .fmem) 26 = 1 := by
  obtain ⟨-, hplanes, -, -⟩ := s.fileHeader_toNat
  rw [← hplanes, ← BitVec.toNat_inj]; rfl

theorem State.compr_fileHeader_eq_zero_iff (s : State) : s.fileHeader.compr = 0 ↔ u32le (s.readByte .fmem) 30 = 0 := by
  obtain ⟨-, -, -, hcompr⟩ := s.fileHeader_toNat
  rw [← hcompr, ← BitVec.toNat_inj]; rfl

/-! ### The checks of DECODE (R130, R293) -/

theorem exec_decode_of_fail {i : Instr} {d : Nat} {s : State} {k : ErrKind}
    (hi : (i = .decode8 ∧ d = 8) ∨ (i = .decode24 ∧ d = 24)) (h : firstFailing (decodeChecks d s) = some k) :
    exec i s = .next (s.fail k) := by
  rcases hi with ⟨rfl, rfl⟩ | ⟨rfl, rfl⟩ <;> exact exec_of_fail h

/-- The first failing check, with the header fields as the bytes of the file spell them. -/
theorem firstFailing_decodeChecks (d : Nat) (s : State) :
    firstFailing (decodeChecks d s) =
      if s.fileLen < 54 then some .format
      else if s.readByte .fmem 0 ≠ 0x42 ∨ s.readByte .fmem 1 ≠ 0x4D then some .format
      else if u16le (s.readByte .fmem) 26 ≠ 1 ∨ u16le (s.readByte .fmem) 28 ≠ d ∨ u32le (s.readByte .fmem) 30 ≠ 0 ∨
          s32 s.fileHeader.width ≤ 0 ∨ s32 s.fileHeader.height = 0 then some .unsupportedFormat
      else if (s32 s.fileHeader.width).toNat * s.fileHeader.rows * (d / 8) > s.caps.pixCap then some .allocation
      else if d = 8 ∧ s.fileLen < 1078 then some .truncatedData
      else if dataOffset s.fileHeader d + strideOf (s32 s.fileHeader.width).toNat (d / 8) * s.fileHeader.rows > s.fileLen
        then some .truncatedData
      else none := by
  obtain ⟨-, -, hbpp, -⟩ := s.fileHeader_toNat
  simp only [decodeChecks, firstFailing_cons, firstFailing_nil, ← s.planes_fileHeader_eq_one_iff,
    ← s.compr_fileHeader_eq_zero_iff, ← hbpp, Bool.or_eq_true, Bool.and_eq_true, bne_iff_ne, beq_iff_eq,
    decide_eq_true_eq, ne_eq, or_assoc, headerSize, paletteSize, Nat.reduceAdd]

/-- Settles O15: each clause follows one branch of the check list. -/
theorem decodeReportsTheFirstFailingCheck : Obligations.DecodeReportsTheFirstFailingCheck := by
  intro i d s hi m L width height stride canon off badLength badSignature badFields tooLarge truncated fails
  have hoff : dataOffset s.fileHeader d = off := s.dataOffset_fileHeader d
  have hchecks : firstFailing (decodeChecks d s) =
      if badLength then some .format else if badSignature then some .format
      else if badFields then some .unsupportedFormat else if tooLarge then some .allocation
      else if truncated then some .truncatedData else none := by
    rw [firstFailing_decodeChecks, hoff, ← ite_or (P := d = 8 ∧ s.fileLen < 1078)]; rfl
  refine ⟨fun hlen => ?_, fun hlen hsig => ?_, fun hlen hsig hfields => ?_, fun hlen hsig hfields hcap => ?_,
    fun hlen hsig hfields hcap htrunc => ?_,
    fun hlen hsig hfields hcap htrunc => (decodeChecks_eq_none_iff d s).1 ?_⟩
  · exact exec_decode_of_fail hi (by rw [hchecks, if_pos hlen])
  · exact exec_decode_of_fail hi (by rw [hchecks, if_neg hlen, if_pos hsig])
  · exact exec_decode_of_fail hi (by rw [hchecks, if_neg hlen, if_neg hsig, if_pos hfields])
  · exact exec_decode_of_fail hi (by rw [hchecks, if_neg hlen, if_neg hsig, if_neg hfields, if_pos hcap])
  · exact exec_decode_of_fail hi (by rw [hchecks, if_neg hlen, if_neg hsig, if_neg hfields, if_neg hcap, if_pos htrunc])
  · rw [hchecks, if_neg hlen, if_neg hsig, if_neg hfields, if_neg hcap, if_neg htrunc]

/-! ### An accepted file (R133, R138 to R142) -/

/-- Settles O16: the header registers are the extracted header, whose fields are the numbers read. -/
theorem decodeCommitsTheSixteenFields : Obligations.DecodeCommitsTheSixteenFields := by
  intro i d s hi h m
  have hd : d = 8 ∨ d = 24 := hi.imp And.right And.right
  obtain ⟨-, -, -, -, hsig, -⟩ := State.imageOk_fileHeader hd h
  exact ⟨_, exec_decode_of_accepted hi h, rfl, rfl, rfl, hsig, extractHeader_toNat m⟩

theorem State.bppb_fileHeader {s : State} {d : Nat} (h : s.fileAccepted d) : s.fileHeader.bppb = d / 8 := by
  obtain ⟨-, ⟨-, hbpp, -⟩, -⟩ := h
  rw [Header.bppb, Header.depth, hbpp]

theorem Header.fileRow_lt (h : Header) {r : Nat} (hr : r < h.rows) : h.fileRow r < h.rows := by
  unfold Header.fileRow; split <;> omega

/-- The row order is its own inverse (R140). -/
theorem Header.fileRow_fileRow (h : Header) {r : Nat} (hr : r < h.rows) : h.fileRow (h.fileRow r) = r := by
  unfold Header.fileRow; split <;> omega

theorem Header.swapChan_lt (h : Header) {c : Nat} (hc : c < h.bppb) : h.swapChan c < h.bppb := by
  unfold Header.swapChan; omega

/-- The channel order is its own inverse (R141). -/
theorem Header.swapChan_swapChan (h : Header) {c : Nat} (hc : c < h.bppb) : h.swapChan (h.swapChan c) = c := by
  unfold Header.swapChan; omega

/-- Where DECODE stores byte `k` of the pixel in column `x` of file row `r` (R140 to R142). -/
theorem readByte_pix_decodeEffect_fileRow (d : Nat) (s : State) {r x k : Nat} (hr : r < s.fileHeader.rows)
    (hx : x < s.fileHeader.w) (hk : k < s.fileHeader.bppb) :
    (decodeEffect d s).readByte .pix (s.fileHeader.pixIndex (s.fileHeader.fileRow r) x (s.fileHeader.swapChan k))
      = s.readByte .fmem (s.fileHeader.filePixelIndex (dataOffset s.fileHeader d) r x k) := by
  rw [readByte_pix_decodeEffect d s _ x _ (s.fileHeader.fileRow_lt hr) hx (s.fileHeader.swapChan_lt hk),
    s.fileHeader.fileRow_fileRow hr, s.fileHeader.swapChan_swapChan hk]

/-- DECODE stores its byte at every index below NBYTES. -/
theorem readByte_pix_decodeEffect_of_lt (d : Nat) (s : State) {j : Nat} (hj : j < s.fileHeader.nbytes) :
    (decodeEffect d s).readByte .pix j = decodedByte s s.fileHeader d j :=
  State.readByte_of_fill_lt (s := decodeEffect d s) (S := .pix) (m := s.pix) rfl hj

/-- DECODE leaves the bytes of PIX beyond the image alone. -/
theorem readByte_pix_decodeEffect_of_le (d : Nat) (s : State) {j : Nat} (hj : s.fileHeader.nbytes ≤ j) :
    (decodeEffect d s).readByte .pix j = s.readByte .pix j :=
  State.readByte_of_fill_le (s := s) (t := decodeEffect d s) (S := .pix) rfl rfl hj

/-- Settles O17: the pixel index and the file index of the model, at one and at three bytes per pixel. -/
theorem decodeCopiesRowsInCanonicalOrder : Obligations.DecodeCopiesRowsInCanonicalOrder := by
  intro i d s hi h m height w rows stride canon off
  have hoff : dataOffset s.fileHeader d = off := s.dataOffset_fileHeader d
  have hbppb := State.bppb_fileHeader h
  refine ⟨_, exec_decode_of_accepted hi h, rfl, rfl, fun r x hr hx => ?_, fun j hj => ?_⟩
  · intro y base
    have hpixel : ∀ k, k < s.fileHeader.bppb →
        (decodeEffect d s).done.readByte .pix ((y * w + x) * s.fileHeader.bppb + (s.fileHeader.bppb - 1 - k))
          = m (off + r * strideOf w s.fileHeader.bppb + x * s.fileHeader.bppb + k) := by
      intro k hk
      rw [← hoff]
      exact readByte_pix_decodeEffect_fileRow d s hr hx hk
    rw [hbppb] at hpixel
    constructor
    · rintro rfl
      rw [Nat.mul_comm 3 x]
      exact ⟨hpixel 2 (by decide), hpixel 1 (by decide), hpixel 0 (by decide)⟩
    · rintro rfl
      change _ = m (off + r * strideOf w (8 / 8) + x)
      simpa using hpixel 0 (by decide)
  · refine readByte_pix_decodeEffect_of_le d s ?_
    obtain ⟨-, ⟨-, hbpp, -⟩, -⟩ := h
    rwa [Header.nbytes_of_depth hbpp]

/-- A palette byte after DECODE 8 (R139). -/
theorem readByte_pal_decodeEffect (s : State) {k : Nat} (hk : k < 1024) :
    (decodeEffect 8 s).readByte .pal k = s.readByte .fmem (54 + k) :=
  State.readByte_of_fill_lt (s := decodeEffect 8 s) (S := .pal) (m := s.pal) rfl hk

/-- DECODE leaves the entries of PAL beyond the palette alone. -/
theorem readByte_pal_decodeEffect_of_le (s : State) {k : Nat} (hk : 1024 ≤ k) :
    (decodeEffect 8 s).readByte .pal k = s.readByte .pal k :=
  State.readByte_of_fill_le (s := s) (t := decodeEffect 8 s) (S := .pal) rfl rfl hk

/-- DECODE 24 leaves PAL alone (R139). -/
theorem readByte_pal_decodeEffect_depth24 (s : State) (k : Nat) :
    (decodeEffect 24 s).readByte .pal k = s.readByte .pal k := rfl

/-- Settles O18: the palette is a fill from offset 54, and the writes touch four fields. -/
theorem decodeCopiesThePaletteAndKeepsTheFile : Obligations.DecodeCopiesThePaletteAndKeepsTheFile := by
  intro i d s hi h
  refine ⟨_, exec_decode_of_accepted hi h, rfl, ?_, ?_, rfl⟩
  · rintro rfl k hk
    exact readByte_pal_decodeEffect s hk
  · rintro rfl; rfl

/-! ### Padding (R141, R142) -/

/-- Byte `k` of the pixel in column `x` is one of the `w·bppb` pixel bytes of its row. -/
theorem Header.rowByte_lt (h : Header) {x k : Nat} (hx : x < h.w) (hk : k < h.bppb) :
    x * h.bppb + k < h.w * h.bppb :=
  calc x * h.bppb + k < x * h.bppb + h.bppb := by omega
    _ = (x + 1) * h.bppb := (Nat.succ_mul _ _).symm
    _ ≤ h.w * h.bppb := Nat.mul_le_mul_right _ hx

/-- DECODE takes every byte of the image from the pixel bytes of a file row, at a place the header alone decides. -/
theorem decodedByte_eq_row_byte (f : Header) (d : Nat) {i : Nat} (hi : i < f.nbytes) :
    ∃ r j, r < f.rows ∧ j < f.w * f.bppb ∧
      ∀ s, decodedByte s f d i = s.readByte .fmem (dataOffset f d + r * f.stride + j) := by
  obtain ⟨hrow, hcol, hchan, -⟩ := f.pixIndex_of_lt hi
  exact ⟨_, _, f.fileRow_lt hrow, f.rowByte_lt hcol (f.swapChan_lt hchan), fun s => by
    rw [decodedByte, Header.filePixelIndex, Nat.add_assoc _ (f.colOf i * f.bppb)]⟩

section
variable {s : State} {m' : Memory 8} {d : Nat}

/-- The checks of DECODE see the 54 header bytes only (R130 steps 1 to 7). -/
theorem decodeChecks_congr (hhead : ∀ k, k < 54 → ({ s with fmem := m' } : State).readByte .fmem k = s.readByte .fmem k) :
    decodeChecks d { s with fmem := m' } = decodeChecks d s := by
  have hheader : ({ s with fmem := m' } : State).fileHeader = s.fileHeader := extractHeader_congr hhead
  rw [decodeChecks, hheader, hhead 0 (by decide), hhead 1 (by decide)]; rfl

theorem readByte_pix_decodeEffect_congr (hheader : ({ s with fmem := m' } : State).fileHeader = s.fileHeader)
    (hrows : ∀ r j, r < s.fileHeader.rows → j < s.fileHeader.w * s.fileHeader.bppb →
      ({ s with fmem := m' } : State).readByte .fmem (dataOffset s.fileHeader d + r * s.fileHeader.stride + j)
        = s.readByte .fmem (dataOffset s.fileHeader d + r * s.fileHeader.stride + j)) (k : Nat) :
    (decodeEffect d { s with fmem := m' }).readByte .pix k = (decodeEffect d s).readByte .pix k := by
  by_cases hk : k < s.fileHeader.nbytes
  · obtain ⟨r, j, hr, hj, hbyte⟩ := decodedByte_eq_row_byte s.fileHeader d hk
    rw [readByte_pix_decodeEffect_of_lt d s hk, readByte_pix_decodeEffect_of_lt d _ (hheader ▸ hk), hheader, hbyte, hbyte,
      hrows r j hr hj]
  · have hle : s.fileHeader.nbytes ≤ k := Nat.not_lt.1 hk
    rw [readByte_pix_decodeEffect_of_le d s hle, readByte_pix_decodeEffect_of_le d _ (hheader ▸ hle)]; rfl

theorem readByte_pal_decodeEffect_congr (hd : d = 8 ∨ d = 24)
    (hcanon : ∀ k, k < canonOf d → ({ s with fmem := m' } : State).readByte .fmem k = s.readByte .fmem k) (k : Nat) :
    (decodeEffect d { s with fmem := m' }).readByte .pal k = (decodeEffect d s).readByte .pal k := by
  rcases hd with rfl | rfl
  · by_cases hk : k < 1024
    · rw [readByte_pal_decodeEffect s hk, readByte_pal_decodeEffect _ hk]
      exact hcanon (54 + k) (Nat.add_lt_add_left hk 54)
    · have hle : 1024 ≤ k := Nat.not_lt.1 hk
      rw [readByte_pal_decodeEffect_of_le s hle, readByte_pal_decodeEffect_of_le _ hle]; rfl
  · rw [readByte_pal_decodeEffect_depth24, readByte_pal_decodeEffect_depth24]; rfl

end

/-- Settles O19: equal header bytes give equal checks and equal headers, and then equal pixel bytes equal images. -/
theorem decodeIgnoresPaddingBytes : Obligations.DecodeIgnoresPaddingBytes := by
  intro i d s m' hi s' f w stride hcanon hrows
  have hd : d = 8 ∨ d = 24 := hi.imp And.right And.right
  have hhead : ∀ k, k < 54 → s'.readByte .fmem k = s.readByte .fmem k := by
    intro k hk
    refine hcanon k (lt_of_lt_of_le hk ?_)
    rcases hd with rfl | rfl <;> decide
  have hchecks : decodeChecks d s' = decodeChecks d s := decodeChecks_congr hhead
  cases hfail : firstFailing (decodeChecks d s) with
  | some k =>
    exact ⟨_, _, exec_decode_of_fail hi hfail, exec_decode_of_fail hi (hchecks ▸ hfail), rfl, rfl, rfl,
      fun _ => rfl, fun _ => rfl⟩
  | none =>
    have h := (decodeChecks_eq_none_iff d s).1 hfail
    have h' := (decodeChecks_eq_none_iff d s').1 (hchecks ▸ hfail)
    have hheader : s'.fileHeader = s.fileHeader := extractHeader_congr hhead
    refine ⟨_, _, exec_decode_of_accepted hi h, exec_decode_of_accepted hi h', rfl, rfl, hheader,
      readByte_pix_decodeEffect_congr hheader ?_, readByte_pal_decodeEffect_congr hd hcanon⟩
    intro r j hr hj
    rw [Header.stride, State.bppb_fileHeader h]
    rw [State.bppb_fileHeader h] at hj
    exact hrows r j hr hj

end Sys2Proof.Machine
end

section
namespace Sys2Proof.Machine

/-! ### ENCODE completes or fails (R152, R156, R157) -/

/-- Settles O23: VALID passes the first check, and the second is the size check. -/
theorem encodeRejectsFilesLargerThanFmem : Obligations.EncodeRejectsFilesLargerThanFmem := by
  intro s hv hsize
  have hlarge : s.hdr.fileSize > s.caps.fileCap := hsize
  exact exec_of_fail (i := .encode) (k := .io) (by simp [checksOf, encodeChecks, needsImage, hv, hlarge])

/-- A file that fits has a size FLEN and the header fields can hold (R7). -/
theorem Header.fileSize_lt {h : Header} {c : Caps} (hcaps : capsOk c) (hfits : h.fileSize ≤ c.fileCap) :
    h.fileSize < 2 ^ 32 := by
  obtain ⟨⟨-, hfile⟩, -⟩ := hcaps
  omega

theorem encodeEffect_flen_toNat {s : State} (hcaps : capsOk s.caps) (hfits : s.hdr.fileSize ≤ s.caps.fileCap) :
    (encodeEffect s).flen.toNat = s.hdr.fileSize :=
  (BitVec.toNat_ofNat _ _).trans (Nat.mod_eq_of_lt (Header.fileSize_lt hcaps hfits))

/-- Settles O22: the writes are a fill of the file's length and FLEN. -/
theorem encodeSetsTheLengthAndKeepsTheImage : Obligations.EncodeSetsTheLengthAndKeepsTheImage := by
  intro s hcaps hv hfits
  exact ⟨_, exec_encode_of_fits hv hfits, rfl, encodeEffect_flen_toNat hcaps hfits,
    fun k hk => readByte_fmem_encodeEffect_of_le s hk, rfl⟩

/-- Settles O25: the file is a function of the header, PIX and PAL, which ENCODE leaves alone. -/
theorem encodeTwiceGivesTheSameFile : Obligations.EncodeTwiceGivesTheSameFile := by
  intro s hv hfits
  let t := (encodeEffect s).done
  refine ⟨t, _, exec_encode_of_fits hv hfits, exec_encode_of_fits (s := t) hv hfits, rfl, rfl, rfl, fun k => ?_⟩
  by_cases hk : k < s.hdr.fileSize
  · exact (readByte_fmem_encodeEffect_of_lt t hk).trans (readByte_fmem_encodeEffect_of_lt s hk).symm
  · exact readByte_fmem_encodeEffect_of_le t (Nat.not_lt.1 hk)

/-! ### The emitted header (R150 step 3, R153) -/

/-- The header of the file ENCODE writes: sizes, offset and a positive height recomputed (R151, R153). -/
def Header.canonical (h : Header) : Header :=
  { h with
    fsize := BitVec.ofNat 32 h.fileSize, doff := BitVec.ofNat 32 h.canon, isize := BitVec.ofNat 32 h.imageSize,
    height := BitVec.ofNat 32 h.rows }

/-- The two bytes of `put16le` spell the number again, modulo 2^16. -/
theorem ofNat_bytes16le (v : Nat) :
    BitVec.ofNat 16 ((BitVec.ofNat 8 v).toNat + 256 * (BitVec.ofNat 8 (v / 256)).toNat) = BitVec.ofNat 16 v := by
  apply BitVec.eq_of_toNat_eq
  simp only [BitVec.toNat_ofNat]; omega

/-- The four bytes of `put32le` spell the number again, modulo 2^32. -/
theorem ofNat_bytes32le (v : Nat) :
    BitVec.ofNat 32 ((BitVec.ofNat 8 v).toNat + 2 ^ 8 * (BitVec.ofNat 8 (v / 2 ^ 8)).toNat +
      2 ^ 16 * (BitVec.ofNat 8 (v / 2 ^ 16)).toNat + 2 ^ 24 * (BitVec.ofNat 8 (v / 2 ^ 24)).toNat) = BitVec.ofNat 32 v := by
  apply BitVec.eq_of_toNat_eq
  simp only [BitVec.toNat_ofNat]; omega

/-- The emitted bytes spell the canonical header. -/
theorem extractHeader_emitted {h : Header} (hsig : h.sig = 0x4D42) :
    extractHeader (fun k => h.emitted.getD k 0) = h.canonical := by
  simp only [Header.emitted, bytes16le, bytes32le, List.cons_append, List.nil_append, extractHeader, u16le, u32le,
    Nat.reduceAdd, List.getD_cons_succ, List.getD_cons_zero, ofNat_bytes16le, ofNat_bytes32le]
  simp only [BitVec.ofNat_toNat, BitVec.setWidth_eq, Header.canonical, hsig]
  rfl

theorem Header.emitted_signature (h : Header) : h.emitted.getD 0 0 = 0x42 ∧ h.emitted.getD 1 0 = 0x4D := by
  simp [Header.emitted]

theorem Header.header_lt_fileSize (h : Header) {k : Nat} (hk : k < 54) : k < h.fileSize :=
  lt_of_lt_of_le hk (le_trans h.le_canon (Nat.le_add_right _ _))

theorem readByte_fmem_encodeEffect_header (s : State) {k : Nat} (hk : k < 54) :
    (encodeEffect s).readByte .fmem k = s.hdr.emitted.getD k 0 := by
  rw [readByte_fmem_encodeEffect_of_lt s (s.hdr.header_lt_fileSize hk), emittedByte_header s hk]

/-- The file ENCODE wrote has the signature DECODE asks for (R131). -/
theorem encodeEffect_signature (s : State) :
    (encodeEffect s).readByte .fmem 0 = 0x42 ∧ (encodeEffect s).readByte .fmem 1 = 0x4D := by
  rw [readByte_fmem_encodeEffect_header s (by decide), readByte_fmem_encodeEffect_header s (by decide)]
  exact s.hdr.emitted_signature

/-- The header fields of the file ENCODE wrote. -/
theorem fileHeader_encodeEffect {s : State} (hsig : s.hdr.sig = 0x4D42) :
    (encodeEffect s).fileHeader = s.hdr.canonical :=
  (extractHeader_congr fun _ hk => (readByte_fmem_encodeEffect_header s hk)).trans (extractHeader_emitted hsig)

section
variable {h : Header} (hsize : h.fileSize < 2 ^ 32)
include hsize

theorem Header.canonical_fsize_toNat : h.canonical.fsize.toNat = h.fileSize :=
  (BitVec.toNat_ofNat _ _).trans (Nat.mod_eq_of_lt hsize)

theorem Header.canonical_doff_toNat : h.canonical.doff.toNat = h.canon :=
  (BitVec.toNat_ofNat _ _).trans (Nat.mod_eq_of_lt (lt_of_le_of_lt (Nat.le_add_right _ _) hsize))

theorem Header.canonical_isize_toNat : h.canonical.isize.toNat = h.imageSize :=
  (BitVec.toNat_ofNat _ _).trans (Nat.mod_eq_of_lt (lt_of_le_of_lt (Nat.le_add_left _ _) hsize))

end

theorem Header.canonical_height_toNat (h : Header) : h.canonical.height.toNat = h.rows := by
  have hrows : h.rows ≤ 2 ^ 31 := s32_natAbs_le h.height
  exact (BitVec.toNat_ofNat _ _).trans (Nat.mod_eq_of_lt (by omega))

/-- Settles O20: the emitted bytes spell the canonical header, and every recomputed number is below 2^32. -/
theorem encodeEmitsTheRecomputedHeader : Obligations.EncodeEmitsTheRecomputedHeader := by
  intro s hinv hv hfits
  refine ⟨_, exec_encode_of_fits hv hfits, rfl, rfl, ?_⟩
  intro m
  obtain ⟨-, -, -, -, hsig, hplanes, hcompr⟩ := State.imageOk_of_inv hinv hv
  have hsize := Header.fileSize_lt hinv.1 hfits
  have hheader : extractHeader m = s.hdr.canonical := fileHeader_encodeEffect hsig
  obtain ⟨-, hfsize, hres1, hres2, hdoff, hihsize, hwidth, hheight, hplanes', hbpp, hcompr', hisize, hxres, hyres,
    hclrused, hclrimp⟩ := hheader ▸ extractHeader_toNat m
  exact ⟨(encodeEffect_signature s).1, (encodeEffect_signature s).2,
    hfsize.symm.trans (Header.canonical_fsize_toNat hsize), hres1.symm, hres2.symm,
    hdoff.symm.trans (Header.canonical_doff_toNat hsize), hihsize.symm, hwidth.symm,
    hheight.symm.trans s.hdr.canonical_height_toNat, hplanes'.symm.trans (congrArg BitVec.toNat hplanes), hbpp.symm,
    hcompr'.symm.trans (congrArg BitVec.toNat hcompr), hisize.symm.trans (Header.canonical_isize_toNat hsize), hxres.symm,
    hyres.symm, hclrused.symm, hclrimp.symm⟩

/-! ### The emitted palette and rows (R154, R155) -/

/-- A palette byte of the file ENCODE wrote (R154). -/
theorem readByte_fmem_encodeEffect_palette {s : State} (hd : s.hdr.depth = 8) {k : Nat} (hk : k < 1024) :
    (encodeEffect s).readByte .fmem (54 + k) = s.readByte .pal k := by
  have hcanon : s.hdr.canon = 1078 := by rw [Header.canon, hd]; rfl
  have hlt : 54 + k < s.hdr.canon := by omega
  rw [readByte_fmem_encodeEffect_of_lt s (lt_of_lt_of_le hlt (Nat.le_add_right _ _)),
    emittedByte_palette s (Nat.le_add_right 54 k) hlt, Nat.add_sub_cancel_left]

/-- Byte `j` of file row `r` of the file ENCODE wrote: a byte of the image, or padding (R155). -/
theorem readByte_fmem_encodeEffect_row (s : State) {r j : Nat} (hr : r < s.hdr.rows) (hj : j < s.hdr.stride) :
    (encodeEffect s).readByte .fmem (s.hdr.canon + r * s.hdr.stride + j) =
      if j < s.hdr.w * s.hdr.bppb then
        s.readByte .pix (s.hdr.pixIndex (s.hdr.rows - 1 - r) (j / s.hdr.bppb) (s.hdr.swapChan (j % s.hdr.bppb)))
      else 0 := by
  rw [readByte_fmem_encodeEffect_of_lt s (s.hdr.row_lt_fileSize hr hj), emittedByte_row s hj]

/-- Byte `k` of the pixel in column `x` of file row `r` of the file ENCODE wrote (R155). -/
theorem readByte_fmem_encodeEffect_pixel (s : State) {r x k : Nat} (hr : r < s.hdr.rows) (hx : x < s.hdr.w)
    (hk : k < s.hdr.bppb) :
    (encodeEffect s).readByte .fmem (s.hdr.filePixelIndex s.hdr.canon r x k)
      = s.readByte .pix (s.hdr.pixIndex (s.hdr.rows - 1 - r) x (s.hdr.swapChan k)) := by
  have hj := s.hdr.rowByte_lt hx hk
  have hdiv : (x * s.hdr.bppb + k) / s.hdr.bppb = x := by
    rw [Nat.add_comm, Nat.add_mul_div_right _ _ (by omega), Nat.div_eq_of_lt hk, Nat.zero_add]
  have hmod : (x * s.hdr.bppb + k) % s.hdr.bppb = k := by
    rw [Nat.mul_add_mod_self_right, Nat.mod_eq_of_lt hk]
  rw [Header.filePixelIndex, Nat.add_assoc _ (x * s.hdr.bppb),
    readByte_fmem_encodeEffect_row s hr (lt_of_lt_of_le hj (le_strideOf _ _)), if_pos hj, hdiv, hmod]

/-- Settles O21: the pixel bytes at one and at three bytes per pixel, and the padding. -/
theorem encodeEmitsRowsBottomUp : Obligations.EncodeEmitsRowsBottomUp := by
  intro s _ hv hfits h
  refine ⟨_, exec_encode_of_fits hv hfits, rfl, fun hd k hk => readByte_fmem_encodeEffect_palette hd hk, ?_⟩
  intro r hr y base
  refine ⟨fun x hx => ?_, fun k hk hlt => ?_⟩
  · have hpixel : ∀ k, k < h.bppb → (encodeEffect s).done.readByte .fmem (base + x * h.bppb + k)
        = s.readByte .pix ((y * h.w + x) * h.bppb + (h.bppb - 1 - k)) :=
      fun k hk => readByte_fmem_encodeEffect_pixel s hr hx hk
    constructor
    · intro hd
      rw [Header.bppb_of_depth24 hd, Nat.mul_comm x] at hpixel
      exact ⟨hpixel 0 (by decide), hpixel 1 (by decide), hpixel 2 (by decide)⟩
    · intro hd
      rw [Header.bppb_of_depth8 hd] at hpixel
      simpa using hpixel 0 (by decide)
  · exact (readByte_fmem_encodeEffect_row s hr hlt).trans (if_neg (Nat.not_lt.2 hk))

/-! ### ENCODE then DECODE (R158) -/

/-- An image has at least one pixel per row, of at least one byte. -/
theorem Header.w_bppb_pos {h : Header} {pixCap : Nat} (himage : h.imageOk pixCap) : 0 < h.w ∧ 0 < h.bppb := by
  obtain ⟨hdepth, hwidth, -⟩ := himage
  refine ⟨by unfold Header.w; omega, ?_⟩
  rcases hdepth with hd | hd
  · rw [Header.bppb_of_depth8 hd]; decide
  · rw [Header.bppb_of_depth24 hd]; decide

section
variable {h : Header} {pixCap : Nat} (himage : h.imageOk pixCap) (hsize : h.fileSize < 2 ^ 32)
include himage hsize

/-- A file that fits has fewer than 2^30 rows, each of at least four bytes, so the height it declares is positive. -/
theorem Header.s32_canonical_height : s32 h.canonical.height = h.rows := by
  obtain ⟨hw, hb⟩ := Header.w_bppb_pos himage
  have hpixels : 0 < h.w * h.bppb := Nat.mul_pos hw hb
  have hstride : 4 ≤ h.stride := by unfold Header.stride strideOf; omega
  have hrows : 4 * h.rows ≤ h.fileSize :=
    le_trans (Nat.mul_le_mul_right _ hstride) (Nat.le_add_left h.imageSize h.canon)
  exact s32_ofNat (by omega)

theorem Header.canonical_rows : h.canonical.rows = h.rows := by
  rw [Header.rows, Header.s32_canonical_height himage hsize, Int.natAbs_natCast]

/-- The written file is bottom-up, whatever the sign of the height was. -/
theorem Header.canonical_fileRow {y : Nat} (hy : y < h.rows) : h.canonical.fileRow y = h.rows - 1 - y := by
  rw [Header.fileRow, Header.s32_canonical_height himage hsize, Header.canonical_rows himage hsize, if_pos (by omega)]

end

theorem Header.dataOffset_canonical {h : Header} (hsize : h.fileSize < 2 ^ 32) (d : Nat) :
    dataOffset h.canonical d = h.canon := by
  have hdoff := Header.canonical_doff_toNat hsize
  have hne : h.canonical.doff ≠ 0 := by
    intro h0
    have hle := h.le_canon
    rw [← hdoff, h0] at hle
    exact absurd hle (by decide)
  rw [dataOffset, if_pos hne, hdoff]

section
variable {s : State} (hcaps : capsOk s.caps) (himage : s.hdr.imageOk s.caps.pixCap)
  (hfits : s.hdr.fileSize ≤ s.caps.fileCap)
include hcaps himage hfits

/-- DECODE of the image's own depth accepts the file ENCODE wrote. -/
theorem fileAccepted_encodeEffect : (encodeEffect s).fileAccepted s.hdr.depth := by
  have ⟨hdepth, hwidth, hheight, hcap, hsig, hplanes, hcompr⟩ := himage
  have hsize := Header.fileSize_lt hcaps hfits
  have hrows := Header.canonical_rows himage hsize
  have hlen : (encodeEffect s).fileLen = s.hdr.fileSize := by
    rw [State.fileLen, encodeEffect_flen_toNat hcaps hfits]
    exact Nat.min_eq_left hfits
  have hcanon : s.hdr.canon ≤ s.hdr.fileSize := Nat.le_add_right _ _
  rw [State.fileAccepted, fileHeader_encodeEffect hsig, hlen, Header.dataOffset_canonical hsize, hrows]
  refine ⟨⟨le_trans s.hdr.le_canon hcanon, encodeEffect_signature s⟩, ⟨hplanes, rfl, hcompr, hwidth, ?_⟩, hcap,
    fun hd => ?_, le_refl _⟩
  · have : s.hdr.rows ≠ 0 := Int.natAbs_ne_zero.2 hheight
    rw [Header.s32_canonical_height himage hsize]
    exact_mod_cast this
  · have : s.hdr.canon = 1078 := by rw [Header.canon, hd]; rfl
    omega

/-- Both orders reverse the rows and the channels, so each pixel byte comes back to its place (R140, R141, R155). -/
theorem readByte_pix_decode_encode {i : Nat} (hi : i < s.hdr.nbytes) :
    (decodeEffect s.hdr.depth (encodeEffect s)).readByte .pix i = s.readByte .pix i := by
  have hsize := Header.fileSize_lt hcaps hfits
  obtain ⟨hy, hx, hc, hindex⟩ := s.hdr.pixIndex_of_lt hi
  have ⟨_, _, _, _, hsig, _⟩ := himage
  have hdecoded := readByte_pix_decodeEffect s.hdr.depth (encodeEffect s) (s.hdr.rowOf i) (s.hdr.colOf i) (s.hdr.chanOf i)
  rw [fileHeader_encodeEffect hsig, Header.canonical_rows himage hsize, Header.dataOffset_canonical hsize,
    Header.canonical_fileRow himage hsize hy] at hdecoded
  have hrow : s.hdr.rows - 1 - (s.hdr.rows - 1 - s.hdr.rowOf i) = s.hdr.rowOf i := by omega
  have hencoded := readByte_fmem_encodeEffect_pixel s (r := s.hdr.rows - 1 - s.hdr.rowOf i) (by omega) hx
    (s.hdr.swapChan_lt hc)
  rw [hrow, s.hdr.swapChan_swapChan hc, hindex] at hencoded
  calc (decodeEffect s.hdr.depth (encodeEffect s)).readByte .pix i
      = (decodeEffect s.hdr.depth (encodeEffect s)).readByte .pix
          (s.hdr.pixIndex (s.hdr.rowOf i) (s.hdr.colOf i) (s.hdr.chanOf i)) := by rw [hindex]
    _ = (encodeEffect s).readByte .fmem (s.hdr.filePixelIndex s.hdr.canon (s.hdr.rows - 1 - s.hdr.rowOf i)
          (s.hdr.colOf i) (s.hdr.swapChan (s.hdr.chanOf i))) := hdecoded hy hx hc
    _ = s.readByte .pix i := hencoded

end

/-- DECODE of an image's own depth. -/
theorem decode_of_depth {d : Nat} (hd : d = 8 ∨ d = 24) :
    ((if d = 8 then Instr.decode8 else .decode24) = .decode8 ∧ d = 8) ∨
      ((if d = 8 then Instr.decode8 else .decode24) = .decode24 ∧ d = 24) := by
  rcases hd with rfl | rfl <;> decide

/-- Settles O24: DECODE accepts the written file, its header is the canonical one, and every byte comes back. -/
theorem decodeAfterEncodeRestoresTheImage : Obligations.DecodeAfterEncodeRestoresTheImage := by
  intro s hinv hv hfits
  have hcaps : capsOk s.caps := hinv.1
  have himage := State.imageOk_of_inv hinv hv
  have ⟨hdepth, _, _, _, hsig, _⟩ := himage
  have hheader := fileHeader_encodeEffect hsig
  have haccepted : (encodeEffect s).done.fileAccepted s.hdr.depth := fileAccepted_encodeEffect hcaps himage hfits
  refine ⟨(encodeEffect s).done, (decodeEffect s.hdr.depth (encodeEffect s).done).done, exec_encode_of_fits hv hfits,
    exec_decode_of_accepted (decode_of_depth hdepth) haccepted, rfl, rfl, (congrArg Header.w hheader).trans rfl,
    (congrArg Header.rows hheader).trans (Header.canonical_rows himage (Header.fileSize_lt hcaps hfits)),
    (congrArg Header.depth hheader).trans rfl, fun i hi => readByte_pix_decode_encode hcaps himage hfits hi,
    fun hd k hk => ?_, hheader⟩
  rw [hd]
  exact (readByte_pal_decodeEffect (encodeEffect s).done hk).trans (readByte_fmem_encodeEffect_palette hd hk)

end Sys2Proof.Machine
end

section
namespace Sys2Proof.Machine

/-! ### NOP (R180, R101) -/

theorem exec_nop (s : State) : exec .nop s = .next s.done := exec_of_ok (i := .nop) rfl

/-- Clauses (a) and (c) of R101: a word with OP = 0 and another bit set is no command. -/
theorem exists_decode_eq_error_of_nop_opcode {w : Word} (hop : opField w = 0) (hw : w ≠ 0) :
    ∃ e, decode w = .error e := by
  rw [exists_decode_eq_error_iff]
  by_cases hz : zeroField w = 0
  · have himm : immField w ≠ 0 := by
      intro himm
      refine hw (BitVec.eq_of_toNat_eq ?_)
      rw [toNat_eq_fields, hz, himm, hop]; rfl
    exact .inr (.inr (.inl ⟨by omega, by omega, himm⟩))
  · exact .inl hz

/-- Settles O11: word 0 is run as NOP, and every other word with OP = 0 takes the error entry. -/
theorem nopOnlyClearsTheError : Obligations.NopOnlyClearsTheError := by
  refine ⟨exec_nop, fun s rest hb hop => ?_⟩
  by_cases hw : s.cmd = 0
  · have hd : decode s.cmd = .ok .nop := hw ▸ decodeOfEncodeIsTheCommand .nop rfl
    obtain ⟨hempty, hturn⟩ := stepRunsTheDecodedCommand.1 s .nop rest hb hd
    rw [if_pos hw]
    exact ⟨fun h => (hempty h).trans (exec_nop s), fun h => (hturn h).trans (exec_nop { s with inbox := rest })⟩
  · obtain ⟨e, he⟩ := exists_decode_eq_error_of_nop_opcode ((opField_eq s.cmd).trans hop) hw
    rw [if_neg hw]
    exact step_of_illegal_word rest hb he

/-! ### FREE (R185) -/

theorem exec_free (s : State) : exec .free s = .next (State.done { s with valid := false }) :=
  exec_of_ok (i := .free) rfl

/-- Settles O12: FREE has no checks, and the state it leaves has no image. -/
theorem freeReleasesTheImage : Obligations.FreeReleasesTheImage := by
  refine fun s => ⟨exec_free s, fun t i ht hi => ?_⟩
  cases (exec_free s).symm.trans ht
  exact exec_of_no_image hi rfl

/-! ### ALLOC (R181 to R184) -/

theorem exec_alloc_of_legal {d : Nat} {s : State} (hw : 0 < s32 s.arg0) (hh : s32 s.arg1 ≠ 0) (hd : d = 8 ∨ d = 24)
    (hcap : (s32 s.arg0).toNat * (s32 s.arg1).natAbs * (d / 8) ≤ s.caps.pixCap) :
    exec (.alloc d) s = .next (allocEffect d s).done :=
  exec_of_ok (i := .alloc d) ((allocChecks_eq_none_iff d s).2 ⟨⟨hw, hh, hd⟩, hcap⟩)

/-- The geometry of the new image in ALLOC's own operands (R12). -/
theorem allocHeader_nbytes (w h : Word) {d : Nat} (hd : d = 8 ∨ d = 24) :
    (allocHeader w h d).nbytes = (s32 w).toNat * (s32 h).natAbs * (d / 8) := by
  have hbpp : (allocHeader w h d).bpp.toNat = d := by
    rcases hd with rfl | rfl <;> rfl
  exact Header.nbytes_of_depth hbpp

theorem readByte_pix_allocEffect_of_lt (d : Nat) (s : State) {i : Nat}
    (hi : i < (allocHeader s.arg0 s.arg1 d).nbytes) : (allocEffect d s).readByte .pix i = 0 :=
  State.readByte_of_fill_lt (s := allocEffect d s) (S := .pix) (m := s.pix) rfl hi

theorem readByte_pix_allocEffect_of_le (d : Nat) (s : State) {i : Nat}
    (hi : (allocHeader s.arg0 s.arg1 d).nbytes ≤ i) : (allocEffect d s).readByte .pix i = s.readByte .pix i :=
  State.readByte_of_fill_le (s := s) (t := allocEffect d s) (S := .pix) rfl rfl hi

theorem readByte_pal_allocEffect (s : State) {k : Nat} (hk : k < 1024) :
    (allocEffect 8 s).readByte .pal k = rampByte k :=
  State.readByte_of_fill_lt (s := allocEffect 8 s) (S := .pal) (m := s.pal) rfl hk

/-- The three colour bytes of entry `i` of the ramp hold its level (R183). -/
theorem rampByte_colour {i c : Nat} (hi : i < 256) (hc : c < 3) : (rampByte (4 * i + c)).toNat = i := by
  rw [rampByte, if_neg (by omega), BitVec.toNat_ofNat, Nat.mod_eq_of_lt (by omega)]
  omega

/-- The fourth byte of an entry of the ramp is 0 (R183). -/
theorem rampByte_reserved (i : Nat) : rampByte (4 * i + 3) = 0 := if_pos (by omega)

/-- Settles O13: the writes of ALLOC read field by field and byte by byte. -/
theorem allocBuildsTheImage : Obligations.AllocBuildsTheImage := by
  intro s d hd hw hh hcap w rows stride canon
  have hbytes : (allocHeader s.arg0 s.arg1 d).nbytes = w * rows * (d / 8) := allocHeader_nbytes s.arg0 s.arg1 hd
  refine ⟨(allocEffect d s).done, exec_alloc_of_legal hw hh hd hcap, rfl, rfl, rfl, rfl, fun i hi => ?_, fun i hi => ?_,
    ?_, ?_, rfl⟩
  · exact readByte_pix_allocEffect_of_lt d s (hbytes ▸ hi)
  · exact readByte_pix_allocEffect_of_le d s (hbytes ▸ hi)
  · rintro rfl i hi
    have hcolour : ∀ c, c < 3 → ((allocEffect 8 s).done.readByte .pal (4 * i + c)).toNat = i := by
      intro c hc
      rw [State.readByte_done, readByte_pal_allocEffect s (by omega), rampByte_colour hi hc]
    refine ⟨hcolour 0 (by decide), hcolour 1 (by decide), hcolour 2 (by decide), ?_⟩
    rw [State.readByte_done, readByte_pal_allocEffect s (by omega), rampByte_reserved]; rfl
  · rintro rfl; rfl

/-- Settles O14: the checks of ALLOC pass on legal operands only, and each reports AllocationError. -/
theorem allocRejectsBadOperands : Obligations.AllocRejectsBadOperands := by
  intro s d hbad
  refine exec_alloc_of_rejected fun hnone => ?_
  obtain ⟨⟨hw, hh, hd⟩, hcap⟩ := (allocChecks_eq_none_iff d s).1 hnone
  rcases hbad with hwidth | hheight | hdepth | hbytes
  · exact absurd hw (Int.not_lt.2 hwidth)
  · exact hh hheight
  · omega
  · exact absurd hcap (Nat.not_le.2 hbytes)

end Sys2Proof.Machine
end

section
namespace Sys2Proof.Machine

/-! ### What a completed pointwise transform leaves (R106, R200) -/

/-- The bytes of PIX below `n` hold the values `g`, and the command is complete. -/
def State.withPixels (s : State) (n : Nat) (g : Nat → Int) : State := (s.setPix n fun i => toByte (g i)).done

theorem State.onlyPixels_withPixels (s : State) (n : Nat) (g : Nat → Int) : s.onlyPixels (s.withPixels n g) := rfl

/-- Each of the first `n` bytes becomes `f` of itself (R201, R202, R203 at depth 8). -/
def State.mapBytes (s : State) (n : Nat) (f : Int → Int) : State := s.withPixels n fun i => f (s.pixVal i)

/-- The three channels of each of the first `n` pixels become `f` of the pixel's mean (R203 at depth 24, R204). -/
def State.mapMeans (s : State) (n : Nat) (f : Int → Int) : State := s.withPixels (3 * n) fun i => f (s.grayOf (i / 3))

section
variable {s : State} {n i : Nat} {g : Nat → Int}

theorem State.readByte_withPixels_of_lt (hi : i < n) : (s.withPixels n g).readByte .pix i = toByte (g i) := by
  rw [State.withPixels, State.readByte_done, State.readByte_setPix_of_lt _ _ _ _ hi]

theorem State.readByte_withPixels_of_le (hi : n ≤ i) : (s.withPixels n g).readByte .pix i = s.readByte .pix i := by
  rw [State.withPixels, State.readByte_done, State.readByte_setPix_of_le _ _ _ _ hi]

theorem State.readByte_mapBytes_of_lt {f : Int → Int} (hi : i < n) :
    (s.mapBytes n f).readByte .pix i = toByte (f (s.pixVal i)) := State.readByte_withPixels_of_lt hi

theorem State.readByte_mapMeans_of_lt {f : Int → Int} (hi : i < 3 * n) :
    (s.mapMeans n f).readByte .pix i = toByte (f (s.grayOf (i / 3))) := State.readByte_withPixels_of_lt hi

/-- A value within 0..255 is read back (R272). -/
theorem State.pixVal_withPixels (hi : i < n) (hg : 0 ≤ g i ∧ g i ≤ 255) : (s.withPixels n g).pixVal i = g i := by
  rw [State.pixVal, State.readByte_withPixels_of_lt hi, toByte_toNat hg.1 hg.2]

end

/-! ### The new values -/

theorem State.grayOf_mem (s : State) (p : Nat) : 0 ≤ s.grayOf p ∧ s.grayOf p ≤ 255 := by
  have hred := And.intro (s.pixVal_nonneg (3 * p)) (s.pixVal_le (3 * p))
  have hgreen := And.intro (s.pixVal_nonneg (3 * p + 1)) (s.pixVal_le (3 * p + 1))
  have hblue := And.intro (s.pixVal_nonneg (3 * p + 2)) (s.pixVal_le (3 * p + 2))
  unfold State.grayOf
  omega

/-- The mean of a pixel, with the division over the natural numbers. -/
theorem State.grayOf_eq_natCast (s : State) (p : Nat) :
    s.grayOf p = (((s.readByte .pix (3 * p)).toNat + (s.readByte .pix (3 * p + 1)).toNat
      + (s.readByte .pix (3 * p + 2)).toNat) / 3 : Nat) := by
  simp only [State.grayOf, State.pixVal, Int.natCast_ediv, Int.natCast_add, Nat.cast_ofNat]

/-- The values `f` gives bytes are bytes. -/
def KeepsByteRange (f : Int → Int) : Prop := ∀ v, 0 ≤ v ∧ v ≤ 255 → 0 ≤ f v ∧ f v ≤ 255

theorem keepsByteRange_id : KeepsByteRange id := fun _ hv => hv

theorem keepsByteRange_negValue : KeepsByteRange negValue := by
  intro v hv
  unfold negValue
  omega

theorem keepsByteRange_brightValue (d : Int) : KeepsByteRange (brightValue d) := fun v _ => clamp8_mem (v + d)

theorem keepsByteRange_threshValue (t : Int) : KeepsByteRange (threshValue t) := by
  intro v _
  unfold threshValue
  split <;> decide

theorem negValue_comp_negValue : negValue ∘ negValue = id := funext (sub_sub_cancel 255)

/-- For an operand from 1 to 255, each of the two values THRESH writes is on its own side of the operand (R203). -/
theorem threshValue_comp_threshValue {t : Int} (h1 : 1 ≤ t) (h255 : t ≤ 255) :
    threshValue t ∘ threshValue t = threshValue t := by
  funext v
  rw [Function.comp]
  by_cases hv : v ≥ t
  · rw [show threshValue t v = 255 from if_pos hv]
    exact if_pos h255
  · rw [show threshValue t v = 0 from if_neg hv]
    exact if_neg (by omega)

theorem threshValue_eq_natCast (t v : Int) : threshValue t v = ((if v ≥ t then 255 else 0 : Nat) : Int) := by
  rw [threshValue]
  split <;> rfl

theorem clamp_eq_min_max (v : Int) : clamp v 0 255 = min (max v 0) 255 := by
  unfold clamp
  split
  · omega
  · split <;> omega

/-! ### `mapBytes` and `mapMeans`, read back and applied twice -/

section
variable {s : State} {n : Nat} {f : Int → Int} (hf : KeepsByteRange f)
include hf

theorem State.pixVal_mapBytes {i : Nat} (hi : i < n) : (s.mapBytes n f).pixVal i = f (s.pixVal i) :=
  State.pixVal_withPixels hi (hf _ ⟨s.pixVal_nonneg i, s.pixVal_le i⟩)

theorem State.pixVal_mapMeans {i : Nat} (hi : i < 3 * n) : (s.mapMeans n f).pixVal i = f (s.grayOf (i / 3)) :=
  State.pixVal_withPixels hi (hf _ (s.grayOf_mem (i / 3)))

theorem State.pixVal_mapMeans_channel {p c : Nat} (hp : p < n) (hc : c < 3) :
    (s.mapMeans n f).pixVal (3 * p + c) = f (s.grayOf p) := by
  rw [State.pixVal_mapMeans hf (by omega), show (3 * p + c) / 3 = p by omega]

/-- The mean of three equal channels is their value. -/
theorem State.grayOf_mapMeans {p : Nat} (hp : p < n) : (s.mapMeans n f).grayOf p = f (s.grayOf p) := by
  have hred : (s.mapMeans n f).pixVal (3 * p) = f (s.grayOf p) :=
    State.pixVal_mapMeans_channel hf hp (c := 0) (by decide)
  rw [State.grayOf, hred, State.pixVal_mapMeans_channel hf hp (by decide),
    State.pixVal_mapMeans_channel hf hp (by decide)]
  omega

theorem State.readByte_mapBytes_mapBytes (f' : Int → Int) (i : Nat) :
    ((s.mapBytes n f).mapBytes n f').readByte .pix i = (s.mapBytes n (f' ∘ f)).readByte .pix i := by
  rcases Nat.lt_or_ge i n with hi | hi
  · rw [State.readByte_mapBytes_of_lt hi, State.readByte_mapBytes_of_lt hi, State.pixVal_mapBytes hf hi, Function.comp]
  · simp only [State.mapBytes, State.readByte_withPixels_of_le hi]

theorem State.readByte_mapMeans_mapMeans (f' : Int → Int) (i : Nat) :
    ((s.mapMeans n f).mapMeans n f').readByte .pix i = (s.mapMeans n (f' ∘ f)).readByte .pix i := by
  rcases Nat.lt_or_ge i (3 * n) with hi | hi
  · rw [State.readByte_mapMeans_of_lt hi, State.readByte_mapMeans_of_lt hi, State.grayOf_mapMeans hf (by omega),
      Function.comp]
  · simp only [State.mapMeans, State.readByte_withPixels_of_le hi]

end

theorem State.readByte_mapBytes_id (s : State) (n i : Nat) : (s.mapBytes n id).readByte .pix i = s.readByte .pix i := by
  rcases Nat.lt_or_ge i n with hi | hi
  · rw [State.readByte_mapBytes_of_lt hi, id, State.pixVal, toByte_toNat_self]
  · exact State.readByte_withPixels_of_le hi

/-! ### Each transform on an image (R201 to R204) -/

/-- A command whose one check is the image's presence completes on an image. -/
theorem exec_of_image {i : Instr} {s : State} (hi : checksOf i s = [needsImage s]) (hv : s.valid = true) :
    exec i s = .next (effectOf i s).done := by
  refine exec_of_ok ?_
  rw [hi, needsImage, hv]
  rfl

section
variable {s : State} (hv : s.valid = true)
include hv

theorem exec_neg : exec .neg s = .next (s.mapBytes s.hdr.nbytes negValue) := exec_of_image (i := .neg) rfl hv

theorem exec_bright : exec .bright s = .next (s.mapBytes s.hdr.nbytes (brightValue (s32 s.arg0))) :=
  exec_of_image (i := .bright) rfl hv

theorem exec_thresh_of_depth8 (hd : s.hdr.depth = 8) :
    exec .thresh s = .next (s.mapBytes s.hdr.npix (threshValue (s32 s.arg0))) := by
  rw [exec_of_image (i := .thresh) rfl hv, effectOf, threshEffect, if_pos hd, State.mapBytes, State.withPixels]

theorem exec_thresh_of_colour (hd : s.hdr.depth ≠ 8) :
    exec .thresh s = .next (s.mapMeans s.hdr.npix (threshValue (clamp (s32 s.arg0) 0 255))) := by
  rw [exec_of_image (i := .thresh) rfl hv, effectOf, threshEffect, if_neg hd, State.mapMeans, State.withPixels]

theorem exec_gray_of_colour (hd : s.hdr.depth ≠ 8) : exec .gray s = .next (s.mapMeans s.hdr.npix id) := by
  refine exec_of_ok (i := .gray) ?_
  rw [checksOf, needsImage, hv, beq_false_of_ne hd]
  rfl

end

/-! ### The statements -/

/-- Settles O26: the complement of a byte is a byte, and complementing twice is the identity. -/
theorem negComplementsEveryByteAndIsAnInvolution : Obligations.NegComplementsEveryByteAndIsAnInvolution := by
  refine ⟨decodeOfEncodeIsTheCommand .neg rfl, fun s => exec_of_no_image (by decide), fun s hv => ?_⟩
  refine ⟨_, exec_neg hv, rfl, rfl, s.onlyPixels_withPixels _ _, fun i hi => ?_,
    fun i => State.readByte_withPixels_of_le, _, exec_neg hv, rfl, fun i => ?_⟩
  · have hnew := State.pixVal_mapBytes (s := s) keepsByteRange_negValue hi
    rw [State.pixVal, State.pixVal, negValue] at hnew
    omega
  · exact (State.readByte_mapBytes_mapBytes keepsByteRange_negValue _ i).trans
      (negValue_comp_negValue ▸ s.readByte_mapBytes_id _ i)

/-- Settles O27: the saturated sum is a byte whatever the operand. -/
theorem brightAddsAndSaturates : Obligations.BrightAddsAndSaturates := by
  refine ⟨decodeOfEncodeIsTheCommand .bright rfl, fun s => exec_of_no_image (by decide), fun s hv => ?_⟩
  exact ⟨_, exec_bright hv, rfl, rfl, s.onlyPixels_withPixels _ _,
    fun i hi => State.pixVal_mapBytes (keepsByteRange_brightValue _) hi, fun i => State.readByte_withPixels_of_le⟩

/-- Settles O28: one case per depth, each byte written being 255 or 0. -/
theorem threshComparesWithTheOperand : Obligations.ThreshComparesWithTheOperand := by
  refine ⟨decodeOfEncodeIsTheCommand .thresh rfl, fun s => exec_of_no_image (by decide), ?_⟩
  intro s hv t0 old
  by_cases hd : s.hdr.depth = 8
  · refine ⟨_, exec_thresh_of_depth8 hv hd, rfl, rfl, s.onlyPixels_withPixels _ _,
      fun _ => ⟨fun i hi => ?_, fun i => State.readByte_withPixels_of_le⟩, fun h24 => by omega⟩
    have hnew := State.pixVal_mapBytes (s := s) (keepsByteRange_threshValue t0) hi
    exact Int.ofNat.inj (hnew.trans (threshValue_eq_natCast _ _))
  · refine ⟨_, exec_thresh_of_colour hv hd, rfl, rfl, s.onlyPixels_withPixels _ _, fun h8 => absurd h8 hd,
      fun _ => ⟨fun p c hp hc => ?_, fun i => State.readByte_withPixels_of_le⟩⟩
    have hnew := State.pixVal_mapMeans_channel (s := s) (keepsByteRange_threshValue (clamp t0 0 255)) hp hc
    rw [threshValue_eq_natCast, s.grayOf_eq_natCast] at hnew
    rw [← clamp_eq_min_max]
    exact Int.ofNat.inj hnew

/-- Settles O29: both checks report the same kind, and the mean of three bytes is a byte. -/
theorem grayReplacesChannelsByTheirMean : Obligations.GrayReplacesChannelsByTheirMean := by
  refine ⟨decodeOfEncodeIsTheCommand .gray rfl, ?_, ?_⟩
  · rintro s (hv | hd)
    · exact exec_of_no_image (by decide) hv
    · exact exec_gray_of_depth8 hd
  · intro s hv hd old
    refine ⟨_, exec_gray_of_colour hv (by omega), rfl, rfl, s.onlyPixels_withPixels _ _, fun p c hp hc => ?_,
      fun i => State.readByte_withPixels_of_le⟩
    exact Int.ofNat.inj ((State.pixVal_mapMeans_channel keepsByteRange_id hp hc).trans (s.grayOf_eq_natCast p))

/-- Settles O30: each command writes the same function of the same values twice, and that function is idempotent. -/
theorem grayAndThreshAreIdempotent : Obligations.GrayAndThreshAreIdempotent := by
  refine ⟨fun s hv hd => ?_, fun s hv h1 h255 => ?_⟩
  · exact ⟨_, _, exec_gray_of_colour hv hd, exec_gray_of_colour hv hd, rfl,
      State.readByte_mapMeans_mapMeans keepsByteRange_id id⟩
  · by_cases hd : s.hdr.depth = 8
    · have hidem := threshValue_comp_threshValue h1 h255
      refine ⟨_, _, exec_thresh_of_depth8 hv hd, exec_thresh_of_depth8 hv hd, rfl, fun i => ?_⟩
      exact (State.readByte_mapBytes_mapBytes (keepsByteRange_threshValue _) (threshValue (s32 s.arg0)) i).trans
        (by rw [hidem])
    · have hclamp : clamp (s32 s.arg0) 0 255 = s32 s.arg0 := clamp8_of_mem (by omega) h255
      have hidem := threshValue_comp_threshValue (t := clamp (s32 s.arg0) 0 255) (by omega) (by omega)
      refine ⟨_, _, exec_thresh_of_colour hv hd, exec_thresh_of_colour hv hd, rfl, fun i => ?_⟩
      exact (State.readByte_mapMeans_mapMeans (keepsByteRange_threshValue _)
        (threshValue (clamp (s32 s.arg0) 0 255)) i).trans (by rw [hidem])

end Sys2Proof.Machine
end

section
namespace Sys2Proof.Machine

/-! ### The sum of a kernel over a neighbourhood (R220, R221) -/

/-- The sum of the nine coefficients. -/
def Kernel.weight (K : Kernel) : Int := ∑ i ∈ Finset.range 3, ∑ j ∈ Finset.range 3, K.coeff i j

/-- The coefficients sum to the divisor and there is no bias, so a flat neighbourhood keeps its value. -/
def Kernel.IsNormalised (K : Kernel) : Prop := K.weight = K.div ∧ 0 < K.div ∧ K.bias = 0

/-- A normalised kernel without negative coefficients takes a weighted mean. -/
def Kernel.IsMean (K : Kernel) : Prop := K.IsNormalised ∧ ∀ i < 3, ∀ j < 3, 0 ≤ K.coeff i j

theorem kernelBlur_isMean : kernelBlur.IsMean := ⟨⟨by decide, by decide, rfl⟩, by decide⟩

theorem kernelGauss_isMean : kernelGauss.IsMean := ⟨⟨by decide, by decide, rfl⟩, by decide⟩

theorem kernelSharpen_isNormalised : kernelSharpen.IsNormalised := ⟨by decide, by decide, rfl⟩

section
variable {K : Kernel} {s : State} {y x c : Nat}

theorem kernelSum_eq_sum : kernelSum K s y x c =
    ∑ i ∈ Finset.range 3, ∑ j ∈ Finset.range 3, K.coeff i j * s.px (y + i - 1) (x + j - 1) c := rfl

/-- S reads the nine bytes of its channel and nothing else (R230 (c)). -/
theorem kernelSum_congr {s' : State}
    (h : ∀ i j, i < 3 → j < 3 → s'.px (y + i - 1) (x + j - 1) c = s.px (y + i - 1) (x + j - 1) c) :
    kernelSum K s' y x c = kernelSum K s y x c := by
  rw [kernelSum_eq_sum, kernelSum_eq_sum]
  refine Finset.sum_congr rfl fun i hi => Finset.sum_congr rfl fun j hj => ?_
  rw [h i j (Finset.mem_range.1 hi) (Finset.mem_range.1 hj)]

theorem kernelSum_of_flat {v : Int} (h : ∀ i j, i < 3 → j < 3 → s.px (y + i - 1) (x + j - 1) c = v) :
    kernelSum K s y x c = K.weight * v := by
  rw [kernelSum_eq_sum, Kernel.weight, Finset.sum_mul]
  refine Finset.sum_congr rfl fun i hi => ?_
  rw [Finset.sum_mul]
  refine Finset.sum_congr rfl fun j hj => ?_
  rw [h i j (Finset.mem_range.1 hi) (Finset.mem_range.1 hj)]

theorem kernelSum_nonneg (hK : ∀ i < 3, ∀ j < 3, 0 ≤ K.coeff i j) : 0 ≤ kernelSum K s y x c := by
  rw [kernelSum_eq_sum]
  exact Finset.sum_nonneg fun i hi => Finset.sum_nonneg fun j hj =>
    mul_nonneg (hK i (Finset.mem_range.1 hi) j (Finset.mem_range.1 hj)) (s.pixVal_nonneg _)

theorem kernelSum_le (hK : ∀ i < 3, ∀ j < 3, 0 ≤ K.coeff i j) : kernelSum K s y x c ≤ K.weight * 255 := by
  rw [kernelSum_eq_sum, Kernel.weight, Finset.sum_mul]
  refine Finset.sum_le_sum fun i hi => ?_
  rw [Finset.sum_mul]
  exact Finset.sum_le_sum fun j hj =>
    mul_le_mul_of_nonneg_left (s.pixVal_le _) (hK i (Finset.mem_range.1 hi) j (Finset.mem_range.1 hj))

end

/-! ### The value a kernel gives a pixel (R220) -/

/-- The rounded, biased and clamped sum. -/
def filterValue (K : Kernel) (s : State) (y x c : Nat) : Int := clamp8 (rnd (kernelSum K s y x c) K.div + K.bias)

theorem rnd_le {n d b : Int} (h0 : 0 ≤ n) (hd : 0 < d) (h : n ≤ b * d) : rnd n d ≤ b := by
  rw [rnd_of_nonneg h0, ← Int.lt_add_one_iff]
  exact Int.ediv_lt_of_lt_mul (by omega) (by linarith)

theorem rnd_nonneg {n d : Int} (h0 : 0 ≤ n) (hd : 0 < d) : 0 ≤ rnd n d := by
  rw [rnd_of_nonneg h0]
  exact Int.ediv_nonneg (by omega) (by omega)

/-- A weighted mean of bytes is a byte, so the clamp does nothing. -/
theorem filterValue_of_mean {K : Kernel} (hK : K.IsMean) (s : State) (y x c : Nat) :
    filterValue K s y x c = rnd (kernelSum K s y x c) K.div := by
  obtain ⟨⟨hweight, hdiv, hbias⟩, hcoeff⟩ := hK
  have h0 : 0 ≤ kernelSum K s y x c := kernelSum_nonneg hcoeff
  have h255 : kernelSum K s y x c ≤ 255 * K.div := by rw [← hweight, mul_comm]; exact kernelSum_le hcoeff
  rw [filterValue, hbias, add_zero, clamp8_of_mem (rnd_nonneg h0 hdiv) (rnd_le h0 hdiv h255)]

theorem filterValue_of_div_one {K : Kernel} (hK : K.div = 1) (s : State) (y x c : Nat) :
    filterValue K s y x c = clamp8 (kernelSum K s y x c + K.bias) := by
  rw [filterValue, hK, rnd_one]

/-! ### What a filter does to the machine (R222, R223) -/

/-- The image after the kernel, and the command complete. -/
def State.filtered (K : Kernel) (s : State) : State := (s.setPix s.hdr.nbytes (filteredByte K s)).done

theorem State.onlyPixels_filtered (K : Kernel) (s : State) : s.onlyPixels (s.filtered K) := rfl

/-- Each filter applies a kernel of its own. -/
theorem exec_filter {i : Instr} (hi : i ∈ [.blur, .gauss, .outline, .emboss, .sharpen]) :
    ∃ K, ∀ s, exec i s = applyKernel K s := by
  cases i with
  | blur | gauss | outline | emboss | sharpen => exact ⟨_, fun _ => rfl⟩
  | nop | free | decode8 | decode24 | encode | alloc | neg | bright | thresh | gray | equalize => simp at hi

theorem applyKernel_of_small {s : State} (K : Kernel) (hv : s.valid = true) (h : s.hdr.w < 3 ∨ s.hdr.rows < 3) :
    applyKernel K s = .next (s.fail .size) :=
  runCommand_of_fail (by rcases h with h | h <;> simp [needsImage, hv, h]) _ s

theorem applyKernel_of_large {s : State} (K : Kernel) (hv : s.valid = true) (hw : 3 ≤ s.hdr.w)
    (hr : 3 ≤ s.hdr.rows) : applyKernel K s = .next (s.filtered K) :=
  runCommand_of_ok (by simp [needsImage, hv, hw, hr]) _ s

/-- An interior pixel exists only in an image a filter accepts. -/
theorem applyKernel_of_interior {s : State} {y x : Nat} (K : Kernel) (hv : s.valid = true) (h : s.hdr.isInterior y x) :
    applyKernel K s = .next (s.filtered K) :=
  applyKernel_of_large K hv (by omega) (by omega)

theorem applyKernel_cases (K : Kernel) (s : State) :
    (∃ k, applyKernel K s = .next (s.fail k)) ∨ applyKernel K s = .next (s.filtered K) := by
  rcases runCommand_cases _ (fun s => s.setPix s.hdr.nbytes (filteredByte K s)) s with ⟨k, -, h⟩ | ⟨-, h⟩
  · exact .inl ⟨k, h⟩
  · exact .inr h

section
variable {K : Kernel} {s : State} {y x c k : Nat}

theorem readByte_filtered_of_lt (hk : k < s.hdr.nbytes) : (s.filtered K).readByte .pix k = filteredByte K s k := by
  rw [State.filtered, State.readByte_done, State.readByte_setPix_of_lt _ _ _ _ hk]

theorem readByte_filtered_of_le (hk : s.hdr.nbytes ≤ k) : (s.filtered K).readByte .pix k = s.readByte .pix k := by
  rw [State.filtered, State.readByte_done, State.readByte_setPix_of_le _ _ _ _ hk]

theorem readByte_filtered_of_border (hy : y < s.hdr.rows) (hx : x < s.hdr.w) (hc : c < s.hdr.bppb)
    (h : ¬s.hdr.isInterior y x) :
    (s.filtered K).readByte .pix (s.hdr.pixIndex y x c) = s.readByte .pix (s.hdr.pixIndex y x c) := by
  rw [readByte_filtered_of_lt (s.hdr.pixIndex_lt hy hx hc), filteredByte_border K s hx hc h]

theorem readByte_filtered_of_interior (h : s.hdr.isInterior y x) (hc : c < s.hdr.bppb) :
    (s.filtered K).readByte .pix (s.hdr.pixIndex y x c) = toByte (filterValue K s y x c) := by
  rw [readByte_filtered_of_lt (s.hdr.pixIndex_lt (by omega) (by omega) hc), filteredByte_interior K s h.1 h.2 hc,
    filterValue]

theorem px_filtered_of_interior (h : s.hdr.isInterior y x) (hc : c < s.hdr.bppb) :
    (s.filtered K).px y x c = filterValue K s y x c := by
  have hread := readByte_filtered_of_interior (K := K) h hc
  exact (congrArg (fun b => (b.toNat : Int)) hread).trans (toByte_clamp8_toNat _)

end

/-- A filter on an image of at least three by three completes, with the values `f` when its kernel gives them. -/
theorem applyKernel_completes {K : Kernel} {s : State} {f : Nat → Nat → Nat → Int} (hv : s.valid = true)
    (hw : 3 ≤ s.hdr.w) (hr : 3 ≤ s.hdr.rows) (hf : ∀ y x c, filterValue K s y x c = f y x c) :
    ∃ t, applyKernel K s = .next t ∧ t.err = .ok ∧ t.busy = false ∧ s.onlyPixels t ∧
      ∀ y x c, s.hdr.isInterior y x → c < s.hdr.bppb → t.px y x c = f y x c :=
  ⟨_, applyKernel_of_large K hv hw hr, rfl, rfl, s.onlyPixels_filtered K,
    fun y x c h hc => (px_filtered_of_interior h hc).trans (hf y x c)⟩

/-! ### Flat images (R230 (d)) -/

section
variable {s : State} {v : Nat} (hflat : ∀ k, k < s.hdr.nbytes → (s.readByte .pix k).toNat = v)
include hflat

theorem px_of_flat {y x c : Nat} (hy : y < s.hdr.rows) (hx : x < s.hdr.w) (hc : c < s.hdr.bppb) : s.px y x c = v :=
  congrArg Nat.cast (hflat _ (s.hdr.pixIndex_lt hy hx hc))

theorem filterValue_of_flat (K : Kernel) {y x c : Nat} (h : s.hdr.isInterior y x) (hc : c < s.hdr.bppb) :
    filterValue K s y x c = clamp8 (rnd (K.weight * v) K.div + K.bias) := by
  rw [filterValue, kernelSum_of_flat fun i j hi hj => px_of_flat hflat (by omega) (by omega) hc]

/-- A normalised kernel gives a flat neighbourhood its own value. -/
theorem filterValue_of_flat_of_normalised {K : Kernel} (hK : K.IsNormalised) {y x c : Nat} (h : s.hdr.isInterior y x)
    (hc : c < s.hdr.bppb) : filterValue K s y x c = s.px y x c := by
  obtain ⟨hweight, hdiv, hbias⟩ := hK
  have hpx := px_of_flat hflat (y := y) (x := x) (by omega) (by omega) hc
  rw [filterValue_of_flat hflat K h hc, ← hpx, hweight, hbias, mul_comm, rnd_mul_self _ hdiv, add_zero,
    clamp8_of_mem (s.pixVal_nonneg _) (s.pixVal_le _)]

theorem readByte_filtered_of_flat {K : Kernel} (hK : K.IsNormalised) (k : Nat) :
    (s.filtered K).readByte .pix k = s.readByte .pix k := by
  rcases Nat.lt_or_ge k s.hdr.nbytes with hk | hk
  · obtain ⟨hy, hx, hc, hindex⟩ := s.hdr.pixIndex_of_lt hk
    rw [← hindex]
    by_cases h : s.hdr.isInterior (s.hdr.rowOf k) (s.hdr.colOf k)
    · rw [readByte_filtered_of_interior h hc, filterValue_of_flat_of_normalised hflat hK h hc]
      exact toByte_toNat_self _
    · exact readByte_filtered_of_border hy hx hc h
  · exact readByte_filtered_of_le hk

end

/-! ### The statements -/

/-- Settles O32: BLUR is a mean, and its nine coefficients are 1. -/
theorem blurAveragesTheNeighbourhood : Obligations.BlurAveragesTheNeighbourhood := by
  refine fun s hv hw hr => applyKernel_completes (K := kernelBlur) hv hw hr fun y x c => ?_
  refine (filterValue_of_mean kernelBlur_isMean s y x c).trans (congrArg (rnd · kernelBlur.div) ?_)
  simp only [kernelSum_eq, kernelBlur, Kernel.coeff, List.getD_cons_zero, List.getD_cons_succ]
  ring

/-- Settles O33: GAUSS is a mean, with the weights of its row of R221. -/
theorem gaussWeightsTheNeighbourhood : Obligations.GaussWeightsTheNeighbourhood := by
  refine fun s hv hw hr => applyKernel_completes (K := kernelGauss) hv hw hr fun y x c => ?_
  refine (filterValue_of_mean kernelGauss_isMean s y x c).trans (congrArg (rnd · kernelGauss.div) ?_)
  simp only [kernelSum_eq, kernelGauss, Kernel.coeff, List.getD_cons_zero, List.getD_cons_succ]
  ring

/-- Settles O34: a divisor of 1 makes the rounding the identity, and the bias is 0. -/
theorem outlineSubtractsTheNeighbours : Obligations.OutlineSubtractsTheNeighbours := by
  refine fun s hv hw hr => applyKernel_completes (K := kernelOutline) hv hw hr fun y x c => ?_
  refine (filterValue_of_div_one rfl s y x c).trans (congrArg clamp8 ?_)
  simp only [kernelSum_eq, kernelOutline, Kernel.coeff, List.getD_cons_zero, List.getD_cons_succ]
  ring

/-- Settles O35: a divisor of 1 makes the rounding the identity, and the bias of 128 is inside the clamp. -/
theorem embossIsOrientedAndBiased : Obligations.EmbossIsOrientedAndBiased := by
  refine fun s hv hw hr => applyKernel_completes (K := kernelEmboss) hv hw hr fun y x c => ?_
  refine (filterValue_of_div_one rfl s y x c).trans (congrArg clamp8 ?_)
  simp only [kernelSum_eq, kernelEmboss, Kernel.coeff, List.getD_cons_zero, List.getD_cons_succ]
  ring

/-- Settles O36: a divisor of 1 makes the rounding the identity, and the corners have coefficient 0. -/
theorem sharpenSubtractsTheEdgeNeighbours : Obligations.SharpenSubtractsTheEdgeNeighbours := by
  refine fun s hv hw hr => applyKernel_completes (K := kernelSharpen) hv hw hr fun y x c => ?_
  refine (filterValue_of_div_one rfl s y x c).trans (congrArg clamp8 ?_)
  simp only [kernelSum_eq, kernelSharpen, Kernel.coeff, List.getD_cons_zero, List.getD_cons_succ]
  ring

/-- Settles O37: a failing filter leaves PIX alone, and a completing one writes the old bytes to the border. -/
theorem filtersKeepTheBorder : Obligations.FiltersKeepTheBorder := by
  intro i s t hi ht
  obtain ⟨K, hexec⟩ := exec_filter hi
  rw [hexec] at ht
  rcases applyKernel_cases K s with ⟨k, h⟩ | h <;> cases h.symm.trans ht
  · exact ⟨rfl, fun _ _ _ _ _ _ _ => s.readByte_fail k _ _, fun _ _ => s.readByte_fail k _ _⟩
  · exact ⟨s.onlyPixels_filtered K, fun _ _ _ => readByte_filtered_of_border, fun _ => readByte_filtered_of_le⟩

/-- Settles O38: BLUR, GAUSS and SHARPEN are normalised, and the weights of OUTLINE and EMBOSS are 0 and 1. -/
theorem filtersOnFlatImages : Obligations.FiltersOnFlatImages := by
  intro s v hv hw hr hflat
  have hcompletes (K : Kernel) : applyKernel K s = .next (s.filtered K) := applyKernel_of_large K hv hw hr
  refine ⟨fun i hi => ?_, ⟨_, hcompletes kernelOutline, rfl, fun y x c h hc => ?_⟩,
    ⟨_, hcompletes kernelEmboss, rfl, fun y x c h hc => ?_⟩⟩
  · simp only [List.mem_cons, List.not_mem_nil, or_false] at hi
    rcases hi with rfl | rfl | rfl
    · exact ⟨_, hcompletes kernelBlur, rfl, readByte_filtered_of_flat hflat kernelBlur_isMean.1⟩
    · exact ⟨_, hcompletes kernelGauss, rfl, readByte_filtered_of_flat hflat kernelGauss_isMean.1⟩
    · exact ⟨_, hcompletes kernelSharpen, rfl, readByte_filtered_of_flat hflat kernelSharpen_isNormalised⟩
  · rw [px_filtered_of_interior h hc, filterValue_of_flat hflat _ h hc, show kernelOutline.weight = 0 by decide,
      show kernelOutline.div = 1 from rfl, show kernelOutline.bias = 0 from rfl, zero_mul, rnd_one]
    rfl
  · rw [px_filtered_of_interior h hc, filterValue_of_flat hflat _ h hc, show kernelEmboss.weight = 1 by decide,
      show kernelEmboss.div = 1 from rfl, show kernelEmboss.bias = 128 from rfl, one_mul, rnd_one, clamp8,
      clamp_eq_min_max, max_eq_left (by omega)]
    omega

/-- Settles O39: both states complete, and the sum is a function of the nine bytes. -/
theorem filterOutputsDependOnNineBytes : Obligations.FilterOutputsDependOnNineBytes := by
  intro i s s' t t' y x c hi hv hv' hhdr h hc hnine ht ht'
  obtain ⟨K, hexec⟩ := exec_filter hi
  have h' : s'.hdr.isInterior y x := hhdr ▸ h
  have hc' : c < s'.hdr.bppb := hhdr ▸ hc
  cases ((hexec s).trans (applyKernel_of_interior K hv h)).symm.trans ht
  cases ((hexec s').trans (applyKernel_of_interior K hv' h')).symm.trans ht'
  rw [px_filtered_of_interior h' hc', px_filtered_of_interior h hc, filterValue, filterValue, kernelSum_congr hnine]

/-- Settles O31: VALID passes the first check, and the second is the size check. -/
theorem filtersRejectImagesUnderThreeByThree : Obligations.FiltersRejectImagesUnderThreeByThree := by
  intro i s hi hv hsmall
  obtain ⟨K, hexec⟩ := exec_filter hi
  exact (hexec s).trans (applyKernel_of_small K hv hsmall)

end Sys2Proof.Machine
end

section
namespace Sys2Proof.Machine

/-! ### The number of pixels of the image, and their levels (R12, R251, R255) -/

theorem Header.npix_pos_of_imageOk {h : Header} {pixCap : Nat} (hi : h.imageOk pixCap) : 0 < h.npix := by
  obtain ⟨-, hw, hh, -⟩ := hi
  exact Nat.mul_pos (by unfold Header.w; omega) (Int.natAbs_pos.2 hh)

theorem Header.npix_le_nbytes {h : Header} (hd : h.depth = 8 ∨ h.depth = 24) : h.npix ≤ h.nbytes := by
  obtain h8 | h24 := hd
  · rw [Header.npix_of_depth8 h8]
  · rw [← Header.three_mul_npix_of_depth24 h24]
    omega

/-- TOTAL is at least 1 and fits a table entry (R24, R7). -/
theorem State.npix_bounds {s : State} (h : s.Inv) (hv : s.valid = true) : 0 < s.hdr.npix ∧ s.hdr.npix < 2 ^ 32 := by
  have himage := State.imageOk_of_inv h hv
  obtain ⟨⟨-, -, hcap⟩, -⟩ := h
  have ⟨hdepth, _, _, hfits, _⟩ := himage
  have hle := Header.npix_le_nbytes hdepth
  exact ⟨Header.npix_pos_of_imageOk himage, by omega⟩

/-- The luminance of three bytes is a byte, so the clamp of IDX does nothing. -/
theorem lumaIndex_natCast {r g b : Nat} (hr : r < 256) (hg : g < 256) (hb : b < 256) :
    lumaIndex r g b = (299 * r + 587 * g + 114 * b + 500) / 1000 := by
  rw [lumaIndex, lumaScaled, clamp8_of_mem (by omega) (by omega)]
  omega

section
variable {s : State}

theorem State.level_of_depth8 (hd : s.hdr.depth = 8) (p : Nat) : s.level p = (s.readByte .pix p).toNat := if_pos hd

theorem State.level_of_depth24 (hd : s.hdr.depth = 24) (p : Nat) :
    s.level p = (299 * (s.readByte .pix (3 * p)).toNat + 587 * (s.readByte .pix (3 * p + 1)).toNat
      + 114 * (s.readByte .pix (3 * p + 2)).toNat + 500) / 1000 := by
  rw [State.level, if_neg (by omega)]
  exact lumaIndex_natCast (s.readByte .pix _).isLt (s.readByte .pix _).isLt (s.readByte .pix _).isLt

theorem State.level_lt (s : State) (p : Nat) : s.level p < 256 := by
  unfold State.level
  split
  · exact (s.readByte .pix p).isLt
  · have := clamp8_mem ((lumaScaled (s.redAt p) (s.greenAt p) (s.blueAt p) + 500) / 1000)
    unfold lumaIndex
    omega

/-! ### Counting the pixels by level (R251, R252) -/

theorem State.cdfOf_eq_countP (s : State) (v : Nat) :
    s.cdfOf v = (List.range s.hdr.npix).countP fun p => decide (s.level p ≤ v) :=
  cdfCount_histCount s.level s.hdr.npix v

theorem State.length_filter_level_eq {level : Nat → Nat} (hl : ∀ p, s.level p = level p) (v : Nat) :
    ((List.range s.hdr.npix).filter fun p => level p == v).length = s.histOf v := by
  obtain rfl : s.level = level := funext hl
  exact List.countP_eq_length_filter.symm

theorem State.length_filter_level_le {level : Nat → Nat} (hl : ∀ p, s.level p = level p) (v : Nat) :
    ((List.range s.hdr.npix).filter fun p => decide (level p ≤ v)).length = s.cdfOf v := by
  obtain rfl : s.level = level := funext hl
  rw [State.cdfOf_eq_countP, List.countP_eq_length_filter]

theorem State.histOf_le (s : State) (v : Nat) : s.histOf v ≤ s.hdr.npix := histCount_le _ _ v

theorem State.cdfOf_le (s : State) (v : Nat) : s.cdfOf v ≤ s.hdr.npix := by
  rw [State.cdfOf_eq_countP]
  exact List.countP_le_length.trans_eq List.length_range

theorem State.histOf_eq_zero {v : Nat} (h : ∀ p, p < s.hdr.npix → s.level p ≠ v) : s.histOf v = 0 :=
  List.countP_eq_zero.2 fun p hp he => h p (List.mem_range.1 hp) (beq_iff_eq.1 he)

/-- The bin of a level that some pixel has is not empty. -/
theorem State.histOf_pos {p : Nat} (hp : p < s.hdr.npix) : 0 < s.histOf (s.level p) :=
  List.countP_pos_iff.2 ⟨p, List.mem_range.2 hp, beq_self_eq_true _⟩

/-- CDF reaches TOTAL at a level that no pixel exceeds. -/
theorem State.cdfOf_eq_npix {v : Nat} (h : ∀ p, p < s.hdr.npix → s.level p ≤ v) : s.cdfOf v = s.hdr.npix := by
  rw [State.cdfOf_eq_countP, List.countP_eq_length.2 fun p hp => decide_eq_true (h p (List.mem_range.1 hp)),
    List.length_range]

/-- The running sum of the first bins. -/
theorem sum_range_eq_cdfCount (hist : Nat → Nat) (v : Nat) :
    ((List.range (v + 1)).map hist).sum = cdfCount hist v := by
  induction v with
  | zero => simp [cdfCount]
  | succ v ih => rw [List.range_succ, List.map_append, List.sum_append, ih, cdfCount]; simp

/-! ### The lookup table (R253, R257, R258) -/

theorem rnd_natCast (n d : Nat) : rnd n d = ((2 * n + d) / (2 * d) : Nat) := by
  rw [rnd_of_nonneg (Int.natCast_nonneg n)]
  push_cast
  rfl

theorem State.lutOf_of_depth8 (hd : s.hdr.depth = 8) (v : Nat) :
    s.lutOf v = ((510 * s.cdfOf v + s.hdr.npix) / (2 * s.hdr.npix) : Nat) := by
  rw [State.lutOf, if_pos hd, lutValue8, show (255 * s.cdfOf v : Int) = (255 * s.cdfOf v : Nat) by push_cast; rfl,
    rnd_natCast, ← Nat.mul_assoc]

/-- CMIN is read at the least non-empty level (R257). -/
theorem cdfMin_eq {hist cdf : Nat → Nat} {m : Nat} (hm : m < 256) (hpos : 0 < hist m)
    (hlow : ∀ v, v < m → hist v = 0) : cdfMin hist cdf = cdf m := by
  have hfind : (List.range bins).find? (fun v => decide (hist v > 0)) = some m := by
    rw [List.find?_range_eq_some]
    exact ⟨decide_eq_true hpos, List.mem_range.2 hm, fun v hv => by simp [hlow v hv]⟩
  rw [cdfMin, hfind, Option.getD_some]

/-- On depth 24 with least level `m`, the table over the natural numbers: the scaled count never needs the clamp. -/
theorem State.lutOf_of_depth24 (hd : s.hdr.depth = 24) {m : Nat} (hm : m < 256) (hpos : 0 < s.histOf m)
    (hlow : ∀ v, v < m → s.histOf v = 0) (i : Nat) :
    s.lutOf i =
      ((if s.hdr.npix ≤ s.cdfOf m then i
        else if s.cdfOf i < s.cdfOf m then 0
        else (510 * (s.cdfOf i - s.cdfOf m) + (s.hdr.npix - s.cdfOf m)) / (2 * (s.hdr.npix - s.cdfOf m)) : Nat) :
        Int) := by
  have hle := s.cdfOf_le i
  rw [State.lutOf, if_neg (by omega), lutValue24, cdfMin_eq hm hpos hlow]
  by_cases hflat : s.hdr.npix ≤ s.cdfOf m
  · rw [if_pos (by omega), if_pos hflat]
  rw [if_neg (by omega), if_neg hflat]
  by_cases hbelow : s.cdfOf i < s.cdfOf m
  · rw [if_pos (by omega), if_pos hbelow]
    rfl
  rw [if_neg (by omega), if_neg hbelow, clamp8_of_mem (rnd_nonneg (by omega) (by omega))
      (rnd_le (by omega) (by omega) (by omega)),
    show (255 * ((s.cdfOf i : Int) - s.cdfOf m)) = (255 * (s.cdfOf i - s.cdfOf m) : Nat) by omega,
    show (s.hdr.npix : Int) - s.cdfOf m = (s.hdr.npix - s.cdfOf m : Nat) by omega, rnd_natCast, ← Nat.mul_assoc]

/-- Every table entry is a byte. -/
theorem State.lutOf_mem (hn : 0 < s.hdr.npix) {v : Nat} (hv : v < 256) : 0 ≤ s.lutOf v ∧ s.lutOf v ≤ 255 := by
  have hle := s.cdfOf_le v
  unfold State.lutOf
  split
  · exact ⟨rnd_nonneg (by omega) (by omega), rnd_le (by omega) (by omega) (by omega)⟩
  · unfold lutValue24
    dsimp only
    split
    · omega
    · split
      · decide
      · exact clamp8_mem _

/-! ### What EQUALIZE does to the machine (R250, R262) -/

/-- The image and the tables after EQUALIZE, and the command complete. -/
def State.equalized (s : State) : State := (equalizeEffect s).done

theorem exec_equalize (hv : s.valid = true) : exec .equalize s = .next s.equalized :=
  exec_of_image (i := .equalize) rfl hv

theorem State.readWord_hist_equalized (hn : s.hdr.npix < 2 ^ 32) {v : Nat} (hv : v < 256) :
    (s.equalized.readWord .hist v).toNat = s.histOf v := by
  rw [State.equalized, State.readWord_done, State.readWord_of_fill_lt (m := s.hist) rfl hv, BitVec.toNat_ofNat,
    Nat.mod_eq_of_lt ((s.histOf_le v).trans_lt hn)]

theorem State.readWord_cdf_equalized (hn : s.hdr.npix < 2 ^ 32) {v : Nat} (hv : v < 256) :
    (s.equalized.readWord .cdf v).toNat = s.cdfOf v := by
  rw [State.equalized, State.readWord_done, State.readWord_of_fill_lt (m := s.cdf) rfl hv, BitVec.toNat_ofNat,
    Nat.mod_eq_of_lt ((s.cdfOf_le v).trans_lt hn)]

theorem State.readByte_lut_equalized {v : Nat} (hv : v < 256) : s.equalized.readByte .lut v = toByte (s.lutOf v) := by
  rw [State.equalized, State.readByte_done, State.readByte_of_fill_lt (m := s.lut) rfl hv]

theorem State.toNat_lut_equalized (hn : 0 < s.hdr.npix) {v : Nat} (hv : v < 256) :
    ((s.equalized.readByte .lut v).toNat : Int) = s.lutOf v := by
  obtain ⟨h0, h255⟩ := State.lutOf_mem hn hv
  rw [State.readByte_lut_equalized hv, toByte_toNat h0 h255]

theorem State.readByte_pix_equalized (s : State) (k : Nat) :
    s.equalized.readByte .pix k = (equalizePixels s).readByte .pix k := by
  obtain ⟨n, f, h⟩ := equalizePixels_eq_setPix s
  rw [State.equalized, State.readByte_done, equalizeEffect, h]
  rfl

theorem State.readByte_pix_equalized_of_le (hd : s.hdr.depth = 8 ∨ s.hdr.depth = 24) {k : Nat}
    (hk : s.hdr.nbytes ≤ k) :
    s.equalized.readByte .pix k = s.readByte .pix k := by
  obtain ⟨f, hf⟩ := equalizePixels_eq_setPix_nbytes hd
  rw [State.readByte_pix_equalized, hf, State.readByte_setPix_of_le _ _ _ _ hk]

theorem State.readByte_pix_equalized_of_depth8 (hd : s.hdr.depth = 8) {i : Nat} (hi : i < s.hdr.npix) :
    s.equalized.readByte .pix i = toByte (s.lutOf (s.level i)) := by
  rw [State.readByte_pix_equalized, equalizePixels, if_pos hd, State.readByte_setPix_of_lt _ _ _ _ hi]

theorem State.readByte_pix_equalized_of_depth24 (hd : s.hdr.depth = 24) {p c : Nat} (hp : p < s.hdr.npix) (hc : c < 3) :
    s.equalized.readByte .pix (3 * p + c) = toByte (equalizedChannel s p c) := by
  rw [State.readByte_pix_equalized, equalizePixels, if_neg (by omega), State.readByte_setPix_of_lt _ _ _ _ (by omega),
    show (3 * p + c) / 3 = p by omega, show (3 * p + c) % 3 = c by omega]

theorem equalizedChannel_mem (s : State) (p c : Nat) :
    0 ≤ equalizedChannel s p c ∧ equalizedChannel s p c ≤ 255 := by
  unfold equalizedChannel
  dsimp only
  split
  · exact clamp8_mem _
  · split <;> exact clamp8_mem _

theorem State.pixVal_equalized_of_depth24 (hd : s.hdr.depth = 24) {p c : Nat} (hp : p < s.hdr.npix) (hc : c < 3) :
    s.equalized.pixVal (3 * p + c) = equalizedChannel s p c := by
  obtain ⟨h0, h255⟩ := equalizedChannel_mem s p c
  rw [State.pixVal, State.readByte_pix_equalized_of_depth24 hd hp hc, toByte_toNat h0 h255]

end

/-! ### A gray pixel keeps its colour (R263 (a)) -/

theorem lumaIndex_gray {v : Int} (h0 : 0 ≤ v) (h255 : v ≤ 255) : lumaIndex v v v = v.toNat := by
  obtain ⟨n, rfl⟩ := Int.eq_ofNat_of_zero_le h0
  rw [lumaIndex_natCast (by omega) (by omega) (by omega)]
  omega

/-- The weights of R255 give a gray no V5, and a U5 of its own value. -/
theorem chroma_gray (v : Int) : chromaU v v v = v ∧ chromaV v v v = 0 := by
  unfold chromaU chromaV
  omega

/-- The U5 of a gray is far below E, so the rounding of R259 removes it. -/
theorem channels_gray {v : Int} (h0 : 0 ≤ v) (h255 : v ≤ 255) :
    redOf v 0 = v ∧ greenOf v v 0 = v ∧ blueOf v v = v := by
  have hround {e : Int} (he : -39465 * v ≤ e ∧ e ≤ 203211 * v) :
      clamp8 (rnd (v * chromaScale + e) chromaScale) = v := by
    have hrnd : rnd (v * chromaScale + e) chromaScale = v := by
      unfold chromaScale
      rw [rnd_of_nonneg (by omega)]
      omega
    rw [hrnd, clamp8_of_mem h0 h255]
  refine ⟨hround (by omega), ?_, hround (by omega)⟩
  rw [greenOf, mul_zero, sub_zero, sub_eq_add_neg]
  exact hround (by omega)

theorem equalizedChannel_gray {s : State} {p c : Nat} {v : Int} (h0 : 0 ≤ v) (h255 : v ≤ 255) (hred : s.redAt p = v)
    (hgreen : s.greenAt p = v) (hblue : s.blueAt p = v) (hlut : s.lutOf (s.level p) = v) :
    equalizedChannel s p c = v := by
  obtain ⟨hU, hV⟩ := chroma_gray v
  obtain ⟨hr, hg, hb⟩ := channels_gray h0 h255
  rw [equalizedChannel, hred, hgreen, hblue, hlut, hU, hV, hr, hg, hb]
  simp only [ite_self]

section
variable {s : State} {v : Byte} (hd : s.hdr.depth = 24) (hgray : ∀ k, k < s.hdr.nbytes → s.readByte .pix k = v)
include hd hgray

theorem State.pixVal_of_allGray {p c : Nat} (hp : p < s.hdr.npix) (hc : c < 3) : s.pixVal (3 * p + c) = v.toNat := by
  have hbytes := Header.three_mul_npix_of_depth24 hd
  rw [State.pixVal, hgray _ (by omega)]

theorem State.level_of_allGray {p : Nat} (hp : p < s.hdr.npix) : s.level p = v.toNat := by
  have hv := v.isLt
  have hred : s.redAt p = v.toNat := State.pixVal_of_allGray hd hgray hp (c := 0) (by decide)
  have hgreen : s.greenAt p = v.toNat := State.pixVal_of_allGray hd hgray hp (by decide)
  have hblue : s.blueAt p = v.toNat := State.pixVal_of_allGray hd hgray hp (by decide)
  rw [State.level, if_neg (by omega), hred, hgreen, hblue, lumaIndex_gray (by omega) (by omega), Int.toNat_natCast]

/-- One level holds every pixel, so CMIN is TOTAL and the table is the identity (R258). -/
theorem State.lutOf_of_allGray (hn : 0 < s.hdr.npix) (i : Nat) : s.lutOf i = i := by
  have hlevel (p : Nat) (hp : p < s.hdr.npix) : s.level p = v.toNat := State.level_of_allGray hd hgray hp
  have hpos : 0 < s.histOf v.toNat := hlevel 0 hn ▸ State.histOf_pos hn
  have hlow (u : Nat) (hu : u < v.toNat) : s.histOf u = 0 :=
    State.histOf_eq_zero fun p hp => (hlevel p hp).trans_ne hu.ne'
  have hcdf : s.cdfOf v.toNat = s.hdr.npix := State.cdfOf_eq_npix fun p hp => (hlevel p hp).le
  rw [State.lutOf_of_depth24 hd v.isLt hpos hlow, if_pos hcdf.ge]

theorem State.readByte_equalized_of_allGray (hn : 0 < s.hdr.npix) (k : Nat) :
    s.equalized.readByte .pix k = s.readByte .pix k := by
  obtain hk | hk := Nat.lt_or_ge k s.hdr.nbytes
  · have hbytes := Header.three_mul_npix_of_depth24 hd
    have hv := v.isLt
    have hp : k / 3 < s.hdr.npix := by omega
    have hsame : equalizedChannel s (k / 3) (k % 3) = v.toNat :=
      equalizedChannel_gray (by omega) (by omega) (State.pixVal_of_allGray hd hgray hp (c := 0) (by decide))
        (State.pixVal_of_allGray hd hgray hp (by decide)) (State.pixVal_of_allGray hd hgray hp (by decide))
        (by rw [State.lutOf_of_allGray hd hgray hn, State.level_of_allGray hd hgray hp])
    have hnew := State.readByte_pix_equalized_of_depth24 hd hp (Nat.mod_lt k (by decide : 0 < 3))
    rw [Nat.div_add_mod] at hnew
    rw [hnew, hsame, toByte_toNat_self, hgray k hk]
  · exact State.readByte_pix_equalized_of_le (.inr hd) hk

end

/-! ### The statements -/

/-- Settles O40: the levels are the bytes, and CDF counts the levels up to its index. -/
theorem equalizeTablesOfDepth8 : Obligations.EqualizeTablesOfDepth8 := by
  intro s hinv hv hd total count
  obtain ⟨hpos, hlt⟩ := State.npix_bounds hinv hv
  have hhist (v : Nat) : count (· == v) = s.histOf v := State.length_filter_level_eq (State.level_of_depth8 hd) v
  have hcdf (v : Nat) : count (· ≤ v) = s.cdfOf v := State.length_filter_level_le (State.level_of_depth8 hd) v
  refine ⟨_, exec_equalize hv, rfl, rfl, fun v hv256 => ?_⟩
  rw [hhist, hcdf]
  exact ⟨State.readWord_hist_equalized hlt hv256, State.readWord_cdf_equalized hlt hv256,
    Int.ofNat.inj ((State.toNat_lut_equalized hpos hv256).trans (State.lutOf_of_depth8 hd v))⟩

/-- Settles O41: CDF of the largest level is TOTAL, and its entry is then 255. -/
theorem equalizeRemapsDepth8 : Obligations.EqualizeRemapsDepth8 := by
  intro s hinv hv hd
  obtain ⟨hpos, -⟩ := State.npix_bounds hinv hv
  have hlevel := State.level_of_depth8 hd
  refine ⟨_, exec_equalize hv, rfl, rfl, fun i hi => ?_, fun i hi hmax => ?_⟩
  · rw [State.readByte_pix_equalized_of_depth8 hd hi, ← hlevel, State.readByte_lut_equalized (s.level_lt i)]
  · have hcdf : s.cdfOf (s.level i) = s.hdr.npix := State.cdfOf_eq_npix fun p hp => by
      rw [hlevel, hlevel]
      exact hmax p hp
    have hlut : (510 * s.hdr.npix + s.hdr.npix) / (2 * s.hdr.npix) = 255 :=
      Nat.div_eq_of_lt_le (by omega) (by omega)
    rw [State.readByte_pix_equalized_of_depth8 hd hi, State.lutOf_of_depth8 hd, hcdf, hlut]
    rfl

/-- Settles O42: the levels are the rounded luminances, and `m` is the level at which CMIN is read. -/
theorem equalizeTablesOfDepth24 : Obligations.EqualizeTablesOfDepth24 := by
  intro s hinv hv hd total px idx count
  obtain ⟨hpos, hlt⟩ := State.npix_bounds hinv hv
  have hhist (v : Nat) : count (· == v) = s.histOf v := State.length_filter_level_eq (State.level_of_depth24 hd) v
  have hcdf (v : Nat) : count (· ≤ v) = s.cdfOf v := State.length_filter_level_le (State.level_of_depth24 hd) v
  refine ⟨_, exec_equalize hv, rfl, rfl, fun v hv256 => ?_, fun m hm256 hm hlow => ?_⟩
  · rw [hhist, hcdf]
    exact ⟨State.readWord_hist_equalized hlt hv256, State.readWord_cdf_equalized hlt hv256⟩
  · intro cmin i hi
    have hlut := State.lutOf_of_depth24 hd hm256 (hhist m ▸ hm) (fun v hvm => hhist v ▸ hlow v hvm) i
    rw [show cmin = s.cdfOf m from hcdf m, hcdf]
    exact Int.ofNat.inj ((State.toNat_lut_equalized hpos hi).trans hlut)

/-- Settles O43: the model's channels, with the luminance read back from LUT. -/
theorem equalizeRecoloursDepth24 : Obligations.EqualizeRecoloursDepth24 := by
  intro s hinv hv hd
  obtain ⟨hpos, -⟩ := State.npix_bounds hinv hv
  refine ⟨_, exec_equalize hv, rfl, rfl, fun p hp => ?_⟩
  intro r g b u v y
  have hy : s.lutOf (s.level p) = y := by
    rw [← State.toNat_lut_equalized hpos (s.level_lt p), State.level_of_depth24 hd]
    rfl
  have hchannel (c : Nat) (hc : c < 3) := State.pixVal_equalized_of_depth24 hd hp hc
  simp only [equalizedChannel, hy] at hchannel
  exact ⟨hchannel 0 (by decide), hchannel 1 (by decide), hchannel 2 (by decide)⟩

/-- Settles O44: the table is the identity, and a gray pixel remapped to its own luminance keeps its channels. -/
theorem equalizeKeepsAllGrayImages : Obligations.EqualizeKeepsAllGrayImages := by
  intro s v hinv hv hd hgray
  obtain ⟨hpos, -⟩ := State.npix_bounds hinv hv
  refine ⟨_, exec_equalize hv, rfl, State.readByte_equalized_of_allGray hd hgray hpos, fun i hi => ?_⟩
  exact Int.ofNat.inj ((State.toNat_lut_equalized hpos hi).trans (State.lutOf_of_allGray hd hgray hpos i))

/-- Settles O45: the bins sum to the last entry of CDF, and no level exceeds 255. -/
theorem cdfAccumulatesTheHistogram : Obligations.CdfAccumulatesTheHistogram := by
  intro s hinv hv
  obtain ⟨-, hlt⟩ := State.npix_bounds hinv hv
  have hhist {v : Nat} (hv256 : v < 256) := State.readWord_hist_equalized hlt hv256
  have hcdf {v : Nat} (hv256 : v < 256) := State.readWord_cdf_equalized hlt hv256
  have htotal : s.cdfOf 255 = s.hdr.npix := State.cdfOf_eq_npix fun p _ => Nat.le_of_lt_succ (s.level_lt p)
  refine ⟨_, exec_equalize hv, rfl, ?_, ?_, fun v hv255 => ?_, (hcdf (by decide)).trans htotal⟩
  · rw [List.map_congr_left fun v hv256 => hhist (List.mem_range.1 hv256), ← htotal]
    exact sum_range_eq_cdfCount s.histOf 255
  · exact (hcdf (by decide)).trans (hhist (by decide)).symm
  · rw [hcdf (by omega), hcdf (by omega), hhist (by omega)]
    rfl

/-- Settles O46: the effect is the pixels below NBYTES and the tables. -/
theorem equalizeChangesPixelsAndTablesOnly : Obligations.EqualizeChangesPixelsAndTablesOnly := by
  intro s hinv hv
  have hdepth := (State.imageOk_of_inv hinv hv).1
  refine ⟨_, exec_equalize hv, rfl, rfl, ?_, fun k => State.readByte_pix_equalized_of_le hdepth⟩
  exact congrArg State.done (equalizeEffect_frame s)

end Sys2Proof.Machine
end

section
namespace Sys2Proof.Machine

/-! ### How a command ends (R291, R295, R296) -/

/-- Settles O7: a command is either the error entry or its writes followed by `done`, which leaves no error. -/
theorem everyCommandEndsAndErrorsChangeNothing : Obligations.EveryCommandEndsAndErrorsChangeNothing := by
  intro i s
  rcases exec_cases i s with ⟨k, -, h⟩ | ⟨-, h⟩
  · exact ⟨s.fail k, h, rfl, fun _ => rfl⟩
  · exact ⟨(effectOf i s).done, h, rfl, fun hne => absurd rfl hne⟩

/-- The causes R291's table lists for an error kind, as conditions on the command and the state it runs in; a completed
command needs none. -/
def ListedCause (i : Instr) (s : State) : ErrKind → Prop
  | .ok => True
  | .format => (i = .decode8 ∨ i = .decode24) ∧
      (s.fileLen < headerSize ∨ s.readByte .fmem 0 ≠ 0x42 ∨ s.readByte .fmem 1 ≠ 0x4D)
  | .unsupportedFormat => (i = .decode8 ∨ i = .decode24) ∧
      (s.fileHeader.planes ≠ 1 ∨ s.fileHeader.bpp.toNat ≠ i.imm8 ∨ s.fileHeader.compr ≠ 0 ∨
        s32 s.fileHeader.width ≤ 0 ∨ s32 s.fileHeader.height = 0)
  | .truncatedData => (i = .decode8 ∨ i = .decode24) ∧
      ((i = .decode8 ∧ s.fileLen < headerSize + paletteSize) ∨
        dataOffset s.fileHeader i.imm8 + strideOf s.fileHeader.w (i.imm8 / 8) * s.fileHeader.rows > s.fileLen)
  | .allocation =>
      ((i = .decode8 ∨ i = .decode24) ∧ s.fileHeader.w * s.fileHeader.rows * (i.imm8 / 8) > s.caps.pixCap) ∨
        ∃ d, i = .alloc d ∧ (s32 s.arg0 ≤ 0 ∨ s32 s.arg1 = 0 ∨ (d ≠ 8 ∧ d ≠ 24) ∨
          (s32 s.arg0).toNat * (s32 s.arg1).natAbs * (d / 8) > s.caps.pixCap)
  | .io => i = .encode ∧ s.hdr.fileSize > s.caps.fileCap
  | .size => i ∈ [.blur, .gauss, .outline, .emboss, .sharpen] ∧ (s.hdr.w < 3 ∨ s.hdr.rows < 3)
  | .illegalCommand =>
      (i ∈ [.encode, .neg, .bright, .thresh, .gray, .blur, .gauss, .outline, .emboss, .sharpen, .equalize] ∧
        s.valid = false) ∨ (i = .gray ∧ s.hdr.depth = 8)

/-! ### Each failing check is a listed cause -/

section
variable {i : Instr} {s : State} {k : ErrKind}

theorem listedCause_of_needsImage
    (hi : i ∈ [.encode, .neg, .bright, .thresh, .gray, .blur, .gauss, .outline, .emboss, .sharpen, .equalize])
    (h : (true, k) = needsImage s) : ListedCause i s k := by
  obtain ⟨hv, rfl⟩ := Prod.mk.inj h
  exact .inl ⟨hi, by simpa using hv⟩

theorem listedCause_of_decodeChecks (hi : i = .decode8 ∨ i = .decode24) (h : (true, k) ∈ decodeChecks i.imm8 s) :
    ListedCause i s k := by
  simp only [decodeChecks, List.mem_cons, List.not_mem_nil, or_false, Prod.mk.injEq] at h
  rcases h with ⟨hlen, rfl⟩ | ⟨hsig, rfl⟩ | ⟨hfields, rfl⟩ | ⟨hcap, rfl⟩ | ⟨hpal, rfl⟩ | ⟨hrows, rfl⟩
  · exact ⟨hi, .inl (of_decide_eq_true hlen.symm)⟩
  · exact ⟨hi, .inr (by simpa using hsig)⟩
  · exact ⟨hi, by simpa [or_assoc] using hfields⟩
  · exact .inl ⟨hi, of_decide_eq_true hcap.symm⟩
  · rcases hi with rfl | rfl
    · exact ⟨.inl rfl, .inl ⟨rfl, by simpa [Instr.imm8] using hpal⟩⟩
    · simp [Instr.imm8] at hpal
  · exact ⟨hi, .inr (of_decide_eq_true hrows.symm)⟩

theorem listedCause_of_encodeChecks (h : (true, k) ∈ encodeChecks s) : ListedCause .encode s k := by
  simp only [encodeChecks, List.mem_cons, List.not_mem_nil, or_false] at h
  rcases h with himage | hlarge
  · exact listedCause_of_needsImage (by simp) himage
  · obtain ⟨hcap, rfl⟩ := Prod.mk.inj hlarge
    exact ⟨rfl, of_decide_eq_true hcap.symm⟩

theorem listedCause_of_allocChecks {d : Nat} (h : (true, k) ∈ allocChecks d s) : ListedCause (.alloc d) s k := by
  simp only [allocChecks, List.mem_cons, List.not_mem_nil, or_false, Prod.mk.injEq] at h
  rcases h with ⟨hoperands, rfl⟩ | ⟨hcap, rfl⟩ <;> refine .inr ⟨d, rfl, ?_⟩
  · have hbad : s32 s.arg0 ≤ 0 ∨ s32 s.arg1 = 0 ∨ (d ≠ 8 ∧ d ≠ 24) := by simpa [or_assoc] using hoperands
    tauto
  · exact .inr (.inr (.inr (of_decide_eq_true hcap.symm)))

theorem listedCause_of_grayChecks (h : (true, k) ∈ checksOf .gray s) : ListedCause .gray s k := by
  simp only [checksOf, List.mem_cons, List.not_mem_nil, or_false] at h
  rcases h with himage | hgray
  · exact listedCause_of_needsImage (by simp) himage
  · obtain ⟨hdepth, rfl⟩ := Prod.mk.inj hgray
    exact .inr ⟨rfl, by simpa using hdepth⟩

theorem listedCause_of_filterChecks (hi : i ∈ [.blur, .gauss, .outline, .emboss, .sharpen])
    (h : (true, k) ∈ [needsImage s, (decide (s.hdr.w < 3) || decide (s.hdr.rows < 3), .size)]) : ListedCause i s k := by
  simp only [List.mem_cons, List.not_mem_nil, or_false] at h
  rcases h with himage | hsides
  · refine listedCause_of_needsImage ?_ himage
    simp only [List.mem_cons, List.not_mem_nil, or_false] at hi ⊢
    tauto
  · obtain ⟨hsmall, rfl⟩ := Prod.mk.inj hsides
    exact ⟨hi, by simpa using hsmall⟩

theorem listedCause_of_checksOf (h : (true, k) ∈ checksOf i s) : ListedCause i s k := by
  cases i with
  | nop | free => simp [checksOf] at h
  | decode8 => exact listedCause_of_decodeChecks (.inl rfl) h
  | decode24 => exact listedCause_of_decodeChecks (.inr rfl) h
  | encode => exact listedCause_of_encodeChecks h
  | alloc d => exact listedCause_of_allocChecks h
  | neg | bright | thresh | equalize => exact listedCause_of_needsImage (by simp) (List.mem_singleton.1 h)
  | gray => exact listedCause_of_grayChecks h
  | blur | gauss | outline | emboss | sharpen => exact listedCause_of_filterChecks (by simp) h

end

/-- A command fails with the kind of one of its failing checks, and completes without an error. -/
theorem listedCause_of_exec {i : Instr} {s t : State} (h : exec i s = .next t) : ListedCause i s t.err := by
  rcases exec_cases i s with ⟨k, hk, hs⟩ | ⟨-, hs⟩ <;> cases hs.symm.trans h
  · exact listedCause_of_checksOf (firstFailing_mem hk)
  · exact trivial

/-- Settles O9: the clause for each error kind is the listed cause of that kind. -/
theorem errorsHaveOnlyTheListedCauses : Obligations.ErrorsHaveOnlyTheListedCauses := by
  intro i s t h
  have cause {k : ErrKind} (he : t.err = k) : ListedCause i s k := he ▸ listedCause_of_exec h
  exact ⟨cause, cause, cause, cause, cause, cause, cause⟩

end Sys2Proof.Machine
end

section
namespace Sys2Proof.Machine

/-! ### Progress (R346, R67, R74) -/

/-- The sequencer's turn always ends, with a command waiting or without (R346). -/
theorem exists_sequencerTurn_eq_next (s : State) : ∃ t, sequencerTurn s = .next t := by
  rcases sequencerTurn_cases s with ⟨-, h⟩ | ⟨-, k, h⟩ | ⟨-, i, -, -, h⟩ <;> exact ⟨_, h⟩

/-- A transaction inside R67 and R74 takes effect. -/
theorem performTxn_of_defined {s : State} {t : Txn} (hbusy : s.busy = true → t = .regRead 0x0C)
    (hextent : Txn.inExtent s t = true) : performTxn t s = .next (Txn.effect s t) := by
  rcases performTxn_cases t s with ⟨hb, ha, -⟩ | ⟨-, hout, -⟩ | ⟨-, -, h⟩
  · exact absurd (t.allowedWhileBusy_eq_true_iff.2 (hbusy hb)) (Bool.eq_false_iff.1 ha)
  · exact absurd hextent (Bool.eq_false_iff.1 hout)
  · exact h

theorem exists_step_eq_next_of_hostKeepsRules {s : State} (h : s.hostKeepsRules) : ∃ t, step s = .next t := by
  rcases step_cases s with ⟨-, hs⟩ | ⟨t, rest, hi, hs⟩ | ⟨rest, -, hs⟩ | ⟨rest, -, hs⟩
  · rw [hs]; exact exists_sequencerTurn_eq_next s
  · obtain ⟨hbusy, hextent⟩ := h t rest hi
    exact ⟨_, hs.trans (performTxn_of_defined (s := { s with inbox := rest }) hbusy hextent)⟩
  · rw [hs]; exact exists_sequencerTurn_eq_next _
  · exact ⟨_, hs⟩

/-- Settles O54: there is no fault to step to, and the host's transaction is the one event that can be refused. -/
theorem onlyUndefinedTransactionsStopTheMachine : Obligations.OnlyUndefinedTransactionsStopTheMachine :=
  ⟨fun _ r => (nomatch r), fun _ => exists_step_eq_next_of_hostKeepsRules⟩

/-! ### Reset (R330, R36, R331) -/

theorem step_of_rst {s : State} {rest : List Event} (h : s.inbox = .rst :: rest) :
    step s = .next (State.resetEvent { s with inbox := rest }) := step_of_event h

/-- Where every register of the map holds 0, every address reads 0: the others are reserved (R61). -/
theorem State.regRead_of_registers_zero {s : State} (h : ∀ p ∈ s.registers, p.2 = 0) (a : Nat) : s.regRead a = 0 := by
  cases hl : s.registers.lookup a with
  | none => exact State.regRead_of_reserved hl
  | some v =>
    obtain ⟨l₁, l₂, hmem, -⟩ := List.lookup_eq_some_iff.1 hl
    have hv : v = 0 := h (a, v) (by rw [hmem]; simp)
    rw [State.regRead, hl, hv]; rfl

/-- A reset leaves the registers as in the state after reset, whatever the capacities and the draw. -/
theorem State.registers_resetEvent (s : State) : s.resetEvent.registers = State.reset.registers := rfl

@[simp] theorem State.regRead_resetEvent (s : State) (a : Nat) : s.resetEvent.regRead a = 0 := by
  refine State.regRead_of_registers_zero ?_ a
  rw [s.registers_resetEvent]
  decide

@[simp] theorem State.readByte_resetEvent (s : State) (S : ByteSpace) (i : Nat) :
    s.resetEvent.readByte S i = Config.powerOnByte S (s.draw + 1) i := by
  cases S <;> rfl

@[simp] theorem State.readWord_resetEvent (s : State) (S : WordSpace) (i : Nat) :
    s.resetEvent.readWord S i = Config.powerOnWord S (s.draw + 1) i := by
  cases S <;> rfl

/-- Settles O55: the step is the reset event, whose fields are known, and a command that needs an image finds none. -/
theorem resetClearsTheRegistersAndTheSlot : Obligations.ResetClearsTheRegistersAndTheSlot := by
  intro s rest h
  exact ⟨_, step_of_rst h, rfl, rfl, rfl, rfl, rfl, rfl, rfl, rfl, rfl, State.regRead_resetEvent _,
    State.readByte_resetEvent _, State.readWord_resetEvent _, rfl, rfl, fun _ hi => exec_of_no_image hi rfl⟩

end Sys2Proof.Machine
end
